-- ==== Sys2Proof/Config.lean ====
section
/-! DEFINITION. What an implementation fixes (spec/00_scope.md R5) and the free values: parameters marked OPEN by the
spec, the four pin identifiers, and the target's answers. A constant without a body has no value any proof can see. -/

namespace Sys2Proof

/-- Width of a register address (R5 `ADDR_W`, fixed). Every address and the command word are written over it (D28). -/
@[simp] abbrev Config.addrW : Nat := 7

/-- Width of every data transfer (R5 `DATA_W`, fixed). Every byte, the bit positions of a byte and the frames made of them are
written over it (D28). -/
@[simp] abbrev Config.dataW : Nat := 8

/-- Width of the command word: the three bits of `op`, `addr` and `data` (R87). -/
@[simp] abbrev Config.cmdW : Nat := 3 + Config.addrW + Config.dataW

/-- Bytes shifted in by one READ_BURST (R5 `BURST_LEN`, fixed). The burst's registers, positions and frame are all indexed
by it (R2, D28). -/
@[simp] abbrev Config.burstLen : Nat := 8

/-- The timing parameters of a built block, in microseconds (R5, R34). DESIGN CHOICE (log 23): whole numbers; the source gives
no resolution (N19). -/
structure Timing where
  tStart : Nat
  tPhase : Nat
  tOutLow : Nat
  tOutHigh : Nat
  tInSettle : Nat
deriving DecidableEq, Repr

/-- OPEN (R5): the delay of an out cell between driving the data bit and the rising edge; any whole number
of microseconds at or above 0 (DESIGN CHOICE, log 23). -/
opaque Config.tOutLow : Nat

/-- OPEN (R5): the delay of an out cell after the rising edge; any whole number
of microseconds at or above 0 (DESIGN CHOICE, log 23). -/
opaque Config.tOutHigh : Nat

/-- OPEN (R5): the delay at the start of an in byte; any whole number
of microseconds at or above 0 (DESIGN CHOICE, log 23). -/
opaque Config.tInSettle : Nat

/-- The built block's timing: `T_START = 300`, `T_PHASE = 100` (R5, D8), the others OPEN. -/
def Config.timing : Timing where
  tStart := 300
  tPhase := 100
  tOutLow := Config.tOutLow
  tOutHigh := Config.tOutHigh
  tInSettle := Config.tInSettle

/-- Whether a wire command after a completed register command under one chip-select assertion is a violation (R5, D16). -/
def Config.csStrict : Bool := true

/-- OPEN (R5): one less than `T_RST_MS`, so that the parameter is any whole number above 0 (log 23). -/
opaque Config.tRstMsLessOne : Nat

/-- Each wait of the chip-select toggle sequence, in ms (R5, R187), OPEN and above 0. DESIGN CHOICE (log 23): any whole number
of milliseconds above 0; the source gives no figure and no resolution (N15). -/
def Config.tRstMs : Nat := Config.tRstMsLessOne + 1

/-- OPEN (R5): one less than `T_POWERUP_MS`, a whole number above 0 (log 23). -/
opaque Config.tPowerUpMsLessOne : Nat

/-- The client's wait after the wake write, in ms (R5, R199), OPEN and above 0. DESIGN CHOICE (log 23): any whole number of
milliseconds above 0; the source gives no figure and no resolution (N15). -/
def Config.tPowerUpMs : Nat := Config.tPowerUpMsLessOne + 1

/-- OPEN (R5): one less than `T_FRAME_US`, a whole number above 0 (log 23). -/
opaque Config.tFrameUsLessOne : Nat

/-- The client's wait for one frame period, in µs (R5, R199), OPEN and above 0. DESIGN CHOICE (log 23): any whole number of
microseconds above 0; the source gives no figure and no resolution (N15). -/
def Config.tFrameUs : Nat := Config.tFrameUsLessOne + 1

/-- The client's cap on the link poll (R5 `LINK_RETRY_CAP`, C13). -/
def Config.linkRetryCap : Nat := 21

/-- FREE VALUE (R26): the level the target gives at the n-th sample of SDI. -/
opaque Config.sdiAnswer : Nat → Bool

/-- FREE VALUE (R5, R21): a numbering of the pin roles. A permutation of the numbers sends four distinct roles to any
four distinct identifiers, and only to distinct ones, which is all R21 says of them. -/
opaque Config.pinNumbering : Equiv.Perm Nat

/-- A row of the register map of R51: the address and its name or group in the source. -/
structure MapRow where
  addr : BitVec Config.dataW
  name : String
deriving DecidableEq, Repr

/-- The register addresses the source names (R2, R51, D28): literals of the source, each a field of the configuration. -/
def Config.regProductId : BitVec Config.dataW := 0x00
def Config.regRevisionId : BitVec Config.dataW := 0x01
def Config.regMotion : BitVec Config.dataW := 0x02
def Config.regDeltaX : BitVec Config.dataW := 0x03
def Config.regDeltaY : BitVec Config.dataW := 0x04
def Config.regDeltaXY : BitVec Config.dataW := 0x05
def Config.regSurfaceQuality : BitVec Config.dataW := 0x06
def Config.regPixelData : BitVec Config.dataW := 0x35
def Config.regInverseRevisionId : BitVec Config.dataW := 0x3E
def Config.regInverseProductId : BitVec Config.dataW := 0x3F
def Config.regBurstMotion : BitVec Config.dataW := 0x42

/-- The registers IdentityVerify reads, in the order the source lists them (R188). -/
def Config.identityRegs : List (BitVec Config.dataW) :=
  [Config.regProductId, Config.regInverseProductId, Config.regRevisionId, Config.regInverseRevisionId]

/-- The register map of R51, the unnamed addresses among it. The block does not know it (R52, R60): no meaning reads it; the
host sequences read the addresses named in it. -/
def Config.registerMap : List MapRow :=
  [⟨Config.regProductId, "product ID"⟩, ⟨Config.regRevisionId, "revision ID"⟩, ⟨Config.regMotion, "motion"⟩,
   ⟨Config.regDeltaX, "delta X"⟩, ⟨Config.regDeltaY, "delta Y"⟩, ⟨Config.regDeltaXY, "delta XY"⟩,
   ⟨Config.regSurfaceQuality, "surface-quality"⟩, ⟨0x12, "laser/config/identity group"⟩]
  ++ [⟨0x1A, "laser/config group, pair 0x1A/0x1F"⟩, ⟨0x1C, "laser/config group, pair 0x1C/0x1D"⟩,
   ⟨0x1D, "second of the pair 0x1C/0x1D"⟩, ⟨0x1F, "second of the pair 0x1A/0x1F"⟩,
   ⟨Config.regPixelData, "pixel-data"⟩]
  ++ [⟨0x3A, "laser/config/identity group"⟩, ⟨0x3C, "laser/config/identity group"⟩,
   ⟨0x3D, "laser/config/identity group"⟩, ⟨Config.regInverseRevisionId, "inverse revision ID"⟩,
   ⟨Config.regInverseProductId, "inverse product ID"⟩, ⟨Config.regBurstMotion, "burst-motion"⟩]

end Sys2Proof
end

