-- ==== Sys2Proof/Word.lean ====
section
/-! DEFINITION. The word types of BBSPI: a byte, a 7-bit register address, the 18-bit command word, a pin level
(spec/00_scope.md R5, R6; spec/30_encoding.md R87). The widths are the configuration's (D28). -/

namespace Sys2Proof

/-- A byte: every data transfer is `DATA_W` = 8 bits wide (R5, R6). -/
abbrev Byte := BitVec Config.dataW

/-- A register address: `ADDR_W` = 7 bits (R5). -/
abbrev Addr := BitVec Config.addrW

/-- The command word `CW[17:0]` (R87). -/
abbrev CmdWord := BitVec Config.cmdW

/-- A pin level: `false` is 0 (low), `true` is 1 (high) (R6). -/
abbrev Level := Bool

end Sys2Proof
end

