-- ==== Sys2Proof/Syntax.lean ====
section
/-! DEFINITION. The seven commands (spec/30_encoding.md R88): every instruction of the block, one constructor per row of
spec/opcode_table.json. The address operand is a byte, as the source's procedures take it, so that an address
outside the 7-bit domain can be written and refused (R90, V5 of spec/60_exceptions.md R166). -/

namespace Sys2Proof

/-- A command of the block (R88). -/
inductive Instr where
  /-- CS_ASSERT: chip-select low (R150). -/
  | csAssert
  /-- CS_RELEASE: chip-select high (R151). -/
  | csRelease
  /-- SHIFT_OUT b: one byte out (R111). -/
  | shiftOut (b : Byte)
  /-- SHIFT_IN: one byte in (R113). -/
  | shiftIn
  /-- READ_REG a: one register byte in (R131). -/
  | readReg (addr : Byte)
  /-- WRITE_REG a, v: one register byte out (R132). -/
  | writeReg (addr : Byte) (v : Byte)
  /-- READ_BURST a: eight bytes in (R133). -/
  | readBurst (addr : Byte)
deriving DecidableEq, Repr

end Sys2Proof
end

