-- ==== Sys2Proof/WellFormed.lean ====
section
/-! DEFINITION. When a command is one the command word can hold: its address operand is a 7-bit value
(spec/30_encoding.md R90, spec/20_memory.md R52). -/

namespace Sys2Proof

/-- The address operand is in `0x00..0x7F` (R52, R90). -/
def addrInRange (addr : Byte) : Bool := decide (addr.toNat < 2 ^ Config.addrW)

/-- A command every operand of which is in its domain. -/
def Instr.wellFormed : Instr → Bool
  | .csAssert => true
  | .csRelease => true
  | .shiftOut _ => true
  | .shiftIn => true
  | .readReg addr => addrInRange addr
  | .writeReg addr _ => addrInRange addr
  | .readBurst addr => addrInRange addr

end Sys2Proof
end

