-- ==== Sys2Proof/Decode.lean ====
section
/-! DEFINITION. The command word `CW18` (spec/30_encoding.md R87, R88, R90): its three fields, the decoder, total on
every word and refusing by name, and after it the encoder. -/

namespace Sys2Proof

/-- `CW[17:15]` (R87). -/
def opField (w : CmdWord) : BitVec 3 := w.extractLsb' (Config.addrW + Config.dataW) 3

/-- `CW[14:8]` (R87). -/
def addrField (w : CmdWord) : Addr := w.extractLsb' Config.dataW Config.addrW

/-- `CW[7:0]` (R87). -/
def dataField (w : CmdWord) : Byte := w.extractLsb' 0 Config.dataW

/-- Why a word is no command (R90): violation V4. -/
inductive DecodeError where
  /-- `op = 000`. -/
  | reservedOp
  /-- a non-zero `addr` field in a command that has no address. -/
  | unusedAddrField
  /-- a non-zero `data` field in a command that has no byte. -/
  | unusedDataField
deriving DecidableEq, Repr

/-- The codes of the command map (R88). -/
def opCsAssert : BitVec 3 := 0b001#3
def opCsRelease : BitVec 3 := 0b010#3
def opShiftOut : BitVec 3 := 0b011#3
def opShiftIn : BitVec 3 := 0b100#3
def opReadReg : BitVec 3 := 0b101#3
def opWriteReg : BitVec 3 := 0b110#3
def opReadBurst : BitVec 3 := 0b111#3

/-- A field the command does not use must be zero (R87, R90). -/
def requireZeroAddr (w : CmdWord) (r : Except DecodeError Instr) : Except DecodeError Instr :=
  if addrField w = 0 then r else .error .unusedAddrField

/-- A field the command does not use must be zero (R87, R90). -/
def requireZeroData (w : CmdWord) (r : Except DecodeError Instr) : Except DecodeError Instr :=
  if dataField w = 0 then r else .error .unusedDataField

/-- The decoder (R88, R90): total, and each refused word is refused by name. -/
def decode (w : CmdWord) : Except DecodeError Instr :=
  let addr : Byte := (addrField w).setWidth Config.dataW
  let data : Byte := dataField w
  if opField w = opCsAssert then requireZeroAddr w (requireZeroData w (.ok .csAssert))
  else if opField w = opCsRelease then requireZeroAddr w (requireZeroData w (.ok .csRelease))
  else if opField w = opShiftOut then requireZeroAddr w (.ok (.shiftOut data))
  else if opField w = opShiftIn then requireZeroAddr w (requireZeroData w (.ok .shiftIn))
  else if opField w = opReadReg then requireZeroData w (.ok (.readReg addr))
  else if opField w = opWriteReg then .ok (.writeReg addr data)
  else if opField w = opReadBurst then requireZeroData w (.ok (.readBurst addr))
  else .error .reservedOp

/-- The three fields laid out (R87). -/
def packWord (op : BitVec 3) (addr : Addr) (data : Byte) : CmdWord := op ++ addr ++ data

/-- The encoder (R88). An address operand of `0x80` or more has no command word (R90): no claim is made of the word given
for one, and only the info of a V3 mark on such a call can show it. -/
def encode : Instr → CmdWord
  | .csAssert => packWord opCsAssert 0 0
  | .csRelease => packWord opCsRelease 0 0
  | .shiftOut b => packWord opShiftOut 0 b
  | .shiftIn => packWord opShiftIn 0 0
  | .readReg addr => packWord opReadReg (addr.setWidth Config.addrW) 0
  | .writeReg addr v => packWord opWriteReg (addr.setWidth Config.addrW) v
  | .readBurst addr => packWord opReadBurst (addr.setWidth Config.addrW) 0

/-- The command a table word stands for: the word is the whole 18-bit `CW`, bit 0 its least significant bit (R87); a
number the 18 bits cannot hold is no word. The spec stores no word anywhere, so there is no byte order to apply. -/
def decodeTableWord (nbits w : Nat) : Option Instr :=
  let bits := w % 2 ^ nbits
  if bits < 2 ^ Config.cmdW then
    match decode (BitVec.ofNat Config.cmdW bits) with
    | .ok i => some i
    | .error _ => none
  else none

/-- A row of the opcode table: the mask picks the fixed bits, the pattern gives their values. -/
structure OpcodeRow where
  mnemonic : String
  mask : CmdWord
  pattern : CmdWord
deriving DecidableEq, Repr

/-- spec/opcode_table.json, its `mask` and `match` columns, written as the table writes them, for the 18-bit word. -/
def opcodeTable : List OpcodeRow :=
  [⟨"CS_ASSERT", 0x3FFFF#18, 0x08000#18⟩, ⟨"CS_RELEASE", 0x3FFFF#18, 0x10000#18⟩,
   ⟨"SHIFT_OUT", 0x3FF00#18, 0x18000#18⟩, ⟨"SHIFT_IN", 0x3FFFF#18, 0x20000#18⟩,
   ⟨"READ_REG", 0x380FF#18, 0x28000#18⟩, ⟨"WRITE_REG", 0x38000#18, 0x30000#18⟩,
   ⟨"READ_BURST", 0x380FF#18, 0x38000#18⟩]

/-- A word matches a row when its fixed bits are the row's. -/
def OpcodeRow.fits (r : OpcodeRow) (w : CmdWord) : Bool := w &&& r.mask == r.pattern

/-- The table's name of a command (R88). -/
def Instr.mnemonic : Instr → String
  | .csAssert => "CS_ASSERT"
  | .csRelease => "CS_RELEASE"
  | .shiftOut _ => "SHIFT_OUT"
  | .shiftIn => "SHIFT_IN"
  | .readReg _ => "READ_REG"
  | .writeReg _ _ => "WRITE_REG"
  | .readBurst _ => "READ_BURST"

end Sys2Proof
end

