-- ==== Sys2Proof/Machine/State.lean ====
section
/-! DEFINITION. The state of BBSPI as plain data (spec/10_state.md R20 to R33), the events of the pin trace
(spec/00_scope.md R10), the violations (spec/60_exceptions.md R166), the outcomes of a step, and the state after reset
(R36). -/

namespace Sys2Proof.Machine

/-- The four pins, by role (R21). -/
inductive Pin where
  | ncs
  | sclk
  | sdi
  | sdo
deriving DecidableEq, Repr

/-- The pins the block drives; SDI is only ever sampled (R26, R36). -/
inductive OutPin where
  | ncs
  | sclk
  | sdo
deriving DecidableEq, Repr

/-- A pin direction (R7): `OUT` or `IN`. -/
inductive Dir where
  | output
  | input
deriving DecidableEq, Repr

/-- The Bus Binding: four pin identifiers, named and never taken by position (R21, C1). What an identifier is, the source
does not say; a number stands for it. -/
structure Pins where
  ncs : Nat
  sclk : Nat
  sdi : Nat
  sdo : Nat
deriving DecidableEq, Repr

/-- The delay parameters an event of a command can name (R5, R34). -/
inductive DelayParam where
  | tStart
  | tPhase
  | tOutLow
  | tOutHigh
  | tInSettle
deriving DecidableEq, Repr

/-- One event of the pin trace (R10). -/
inductive Event where
  /-- `W(p, l)`: the block drives pin `p` to level `l`. -/
  | write (p : OutPin) (l : Level)
  /-- `M(p, d)`: the direction of pin `p` becomes `d`. -/
  | mode (p : Pin) (d : Dir)
  /-- `S(b)`: SDI was sampled and answered `b`. -/
  | sample (b : Level)
  /-- `D(n)`: a busy-wait of at least the parameter's value, kept by the parameter's name (R117). -/
  | delay (t : DelayParam)
deriving DecidableEq, Repr

/-- The part of a command's event sequence being performed (R31). -/
inductive Phase where
  | idle
  | start
  | addr
  | gap
  | dataOut
  | dataIn
  | pin
deriving DecidableEq, Repr

/-- `SEQ`, the position of the block within its command (R31): phase, byte index, bit index. -/
structure Seq where
  phase : Phase
  k : Fin Config.burstLen
  i : Fin Config.dataW
deriving DecidableEq, Repr

/-- The index of a byte's first bit on the wire, 7: its most significant bit (R31, R53). -/
def topBit : Fin Config.dataW := ⟨Config.dataW - 1, by decide⟩

/-- `(IDLE, 0, 7)`: no command in progress (R31). -/
def Seq.atRest : Seq := ⟨.idle, 0, topBit⟩

/-- A result register the host can read (R28, R30, R181). The flag `BUSY` is no result register: its read is
`HostAction.readBusy` (DESIGN CHOICE, log 24). -/
inductive HostReg where
  | rx
  | b (k : Fin Config.burstLen)
deriving DecidableEq, Repr

/-- The violations, each with the info R166 records. -/
inductive Violation where
  /-- V1 `NcsHighOnEntry`: a wire command accepted while `NCS = 1`. -/
  | ncsHighOnEntry (cw : CmdWord)
  /-- V2 `TransactionNotDelimited`: under `CS_STRICT`, a wire command accepted while `G_TXN_DONE = 1`. -/
  | transactionNotDelimited (cw : CmdWord)
  /-- V3 `Reentry`: a command presented while `BUSY = 1`, or by an agent other than the single host. -/
  | reentry (cw : CmdWord)
  /-- V4 `ReservedCommand`: `op = 000`, or a non-zero unused field. -/
  | reservedCommand (cw : CmdWord)
  /-- V5 `AddressOutOfRange`: an address operand of `0x80` or more. -/
  | addressOutOfRange (operand : Byte)
  /-- V6 `UnwrittenRead`: the host reads a register no command has written since reset. -/
  | unwrittenRead (r : HostReg)
deriving DecidableEq, Repr

/-- What the block has handed to the host (R10, R181): one entry for each completed command and each host read. -/
inductive Returned where
  /-- the command returns nothing (R88). -/
  | nothing
  /-- `RX`, or the register a host read asked for. -/
  | byte (v : Byte)
  /-- `B[0..7]`. -/
  | burst (v : Vector Byte Config.burstLen)
  /-- `BUSY`, where the host asked for it (log 24). -/
  | flag (v : Level)
deriving DecidableEq, Repr

/-- What the host does next at the block's port (R94, R181, R182). -/
inductive HostAction where
  /-- presents a command word (R87). -/
  | word (cw : CmdWord)
  /-- presents a value of the command type (R87, R181). -/
  | call (i : Instr)
  /-- `WAIT_US n`: issues no command for at least `n` µs (R94); DESIGN CHOICE (log 23): `n` is a whole number. -/
  | waitUs (n : Nat)
  /-- `WAIT_MS n`: issues no command for at least `n` ms (R94); DESIGN CHOICE (log 23): `n` is a whole number. -/
  | waitMs (n : Nat)
  /-- reads a result register (R181). -/
  | read (r : HostReg)
  /-- reads the status flag `BUSY` (R20, R31). DESIGN CHOICE (log 24): that the host has this read; D2 and R181 list reads of
  `RX` and `B[k]` alone. -/
  | readBusy
  /-- not the host: another agent presents a command word (V3 of R166). -/
  | intruder (cw : CmdWord)
deriving DecidableEq, Repr

/-- The state of the block (R20), the model's ghost marks (R33), the observables (R10) and the environment's pending
inputs. -/
structure State where
  /-- `PINS` (R21). -/
  pins : Pins
  /-- `NCS` latch (R22). -/
  ncs : Level
  /-- `SCLK` latch (R23). -/
  sclk : Level
  /-- `SDO` latch (R24). -/
  sdo : Level
  /-- `SDO_DIR` (R25). -/
  sdoDir : Dir
  /-- direction of the chip-select pin (R22, R36). -/
  ncsDir : Dir
  /-- direction of the clock pin (R23, R36). -/
  sclkDir : Dir
  /-- direction of the data-in pin (R26, R36). -/
  sdiDir : Dir
  /-- `TXSR` (R27). -/
  txsr : Byte
  /-- `RX` (R28). -/
  rx : Byte
  /-- ghost: some command has written `RX` since reset (R36, V6). -/
  rxWritten : Bool
  /-- `OP` latch (R29). -/
  op : BitVec 3
  /-- `A` latch (R29). -/
  a : Addr
  /-- `V` latch (R29). -/
  v : Byte
  /-- `B[0..7]` (R30). -/
  b : Vector Byte Config.burstLen
  /-- ghost: some command has written `B[k]` since reset (R36, V6). -/
  bWritten : Vector Bool Config.burstLen
  /-- `SEQ` (R31). `BUSY` is read from it (R32). -/
  seq : Seq
  /-- the byte being shifted in, `r` of R113, while a command is in progress. -/
  rxsr : Byte
  /-- ghost `G_TXN_DONE` (R33). -/
  txnDone : Bool
  /-- ghost `G_VIOL` (R33): no repeats, oldest first. -/
  viol : List Violation
  /-- the pin trace (R10), oldest event first. -/
  trace : List Event
  /-- the values returned to the host (R10), oldest first. -/
  returned : List Returned
  /-- the model's own: the answers the target will give next (R26), oldest first. -/
  sdi : List Level
  /-- the model's own: how many samples have been taken; indexes the free answers once `sdi` is used up. -/
  sampled : Nat
  /-- the model's own: what the host does next (R182), oldest first. -/
  inbox : List HostAction
deriving DecidableEq, Repr

/-- Why the machine stops with a fault. -/
inductive Fault where
  /-- V3 of R166, raised by every command presented while `BUSY = 1`, by a word presented while `BUSY = 1`, and by a
  command of another agent. The spec calls what follows undefined and gives no effect (R166, R170, U3). The argument is the
  state the machine stops in: the state before, with the violation recorded. SAFE: the model stops where the hardware does
  something unknown. -/
  | reentry (stopped : State)
deriving DecidableEq, Repr

/-- Why a step has no meaning. -/
inductive Refusal where
  /-- An instruction that has no meaning yet, raised only by an arm of `exec`; every command has its meaning, so no arm
  raises it. SAFE. -/
  | notModelled (mnemonic : String)
deriving DecidableEq, Repr

/-- The identifiers given at construction (R36): any four distinct ones (R21). -/
def Pins.given : Pins where
  ncs := Config.pinNumbering 0
  sclk := Config.pinNumbering 1
  sdi := Config.pinNumbering 2
  sdo := Config.pinNumbering 3

/-- The state right after reset, which is construction (R36, R185). The registers R36 leaves unwritten hold zero, a
DESIGN CHOICE (log 1), with their written marks false. -/
def State.reset : State where
  pins := Pins.given
  ncs := true
  sclk := true
  sdo := false
  sdoDir := .output
  ncsDir := .output
  sclkDir := .output
  sdiDir := .input
  txsr := 0
  rx := 0
  rxWritten := false
  op := 0
  a := 0
  v := 0
  b := Vector.replicate Config.burstLen 0
  bWritten := Vector.replicate Config.burstLen false
  seq := Seq.atRest
  rxsr := 0
  txnDone := false
  viol := []
  trace := []
  returned := []
  sdi := []
  sampled := 0
  inbox := []

end Sys2Proof.Machine
end

