-- ==== Sys2Proof/Machine/Operands.lean ====
section
/-! DEFINITION. Every operand form (spec/30_encoding.md R89; spec/41_register_access.md R134, R137) and the block's only
data operations (spec/40_bit_transport.md R116): select a bit, place a bit, form the address byte. -/

namespace Sys2Proof.Machine

/-- The bit indices of a byte in the order they travel: bit 7 first, bit 0 last (R53, R81). -/
def bitsDown : List (Fin Config.dataW) := (List.finRange Config.dataW).reverse

/-- The byte indices of a burst in the order they arrive (R54). -/
def bytesUp : List (Fin Config.burstLen) := List.finRange Config.burstLen

/-- The last byte of a burst: `BURST_LEN` bytes come in (R5, R133). -/
def lastByte : Fin Config.burstLen := ⟨Config.burstLen - 1, by decide⟩

/-- An address operand the command word has room for: a 7-bit value (R52, R90). -/
def addressFits (addr : Byte) : Bool := decide (addr.toNat < 2 ^ Config.addrW)

/-- The address byte `{DIR, A[6:0]}` (R82, R89): `DIR` is 1 for a write, 0 for a read. It is a byte because
`1 + ADDR_W = DATA_W`. -/
def addressByte (dir : Bool) (addr : Addr) : Byte := BitVec.ofBool dir ++ addr

/-- Bit `i` of a byte, `v[i]` (R6). -/
def bitOf (v : Byte) (i : Fin Config.dataW) : Level := v.getLsbD i.val

/-- `r[i] <- x` (R113, R116): every other bit keeps its value. -/
def placeBit (r : Byte) (i : Fin Config.dataW) (x : Level) : Byte :=
  (r &&& ~~~((1 : Byte) <<< i.val)) ||| ((BitVec.ofBool x).setWidth Config.dataW <<< i.val)

/-- The identifier bound to a pin (R21). -/
def Pins.idOf (p : Pins) : Pin → Nat
  | .ncs => p.ncs
  | .sclk => p.sclk
  | .sdi => p.sdi
  | .sdo => p.sdo

/-- The four identifiers are pairwise distinct (R21, D24). -/
def Pins.distinct (p : Pins) : Bool :=
  p.ncs != p.sclk && p.ncs != p.sdi && p.ncs != p.sdo && p.sclk != p.sdi && p.sclk != p.sdo && p.sdi != p.sdo

/-- A driven pin among the four. -/
def OutPin.toPin : OutPin → Pin
  | .ncs => .ncs
  | .sclk => .sclk
  | .sdo => .sdo

/-- The bound identifier whose level or direction an event sets or reads; a delay touches no pin (R7, R21). -/
def Event.boundPin (p : Pins) : Event → Option Nat
  | .write q _ => some (p.idOf q.toPin)
  | .mode q _ => some (p.idOf q)
  | .sample _ => some (p.idOf .sdi)
  | .delay _ => none

end Sys2Proof.Machine
end

