-- ==== Sys2Proof/Machine/Flags.lean ====
section
/-! DEFINITION. The one status flag `BUSY` (spec/10_state.md R32), the ghost marks `G_TXN_DONE` and `G_VIOL` (R33), and
the check of a wire command's entry conditions (spec/60_exceptions.md R166, R169). -/

namespace Sys2Proof.Machine

/-- `BUSY` (R32): 1 exactly while `SEQ.phase` is not `IDLE`. -/
def State.busy (s : State) : Bool := s.seq.phase != .idle

/-- Enters a violation in `G_VIOL` (R166): a set, never cleared (R171). -/
def record (x : Violation) (s : State) : State :=
  if x ∈ s.viol then s else { s with viol := s.viol ++ [x] }

/-- The entry check of the five wire commands, first hit only (R166, R169): V1, then V2 where `CS_STRICT` holds. -/
def entryViolation (strict : Bool) (cw : CmdWord) (s : State) : Option Violation :=
  if s.ncs then some (.ncsHighOnEntry cw)
  else if strict && s.txnDone then some (.transactionNotDelimited cw)
  else none

/-- Records what the entry check found, if anything. The hardware carries on all the same (R166). -/
def checkEntry (cw : CmdWord) (s : State) : State :=
  match entryViolation Config.csStrict cw s with
  | some x => record x s
  | none => s

/-- The commands whose completion sets `G_TXN_DONE` (R33): READ_REG, WRITE_REG, READ_BURST. -/
def isRegisterOp (op : BitVec 3) : Bool := op == opReadReg || op == opWriteReg || op == opReadBurst

/-- The five commands that clock the wire (R166, V1 and V2). -/
def isWireOp (op : BitVec 3) : Bool := op == opShiftOut || op == opShiftIn || isRegisterOp op

end Sys2Proof.Machine
end

