-- ==== Sys2Proof/Machine/Ops.lean ====
section
/-! DEFINITION. The named operations every meaning is made of: the pin primitives (spec/00_scope.md R7), the two bit
cells (spec/40_bit_transport.md R110, R112), the byte frames (spec/30_encoding.md R81), the acceptance and the completion
of a command (spec/10_state.md R29, R31, R32, R33), and what happens at a violation (spec/60_exceptions.md R165 to R170),
which on this hardware stands in the place of taking an exception: the hardware raises none and returns from none. -/

namespace Sys2Proof.Machine

/-- Appends one event to the pin trace (R10). -/
def emit (e : Event) (s : State) : State := { s with trace := s.trace ++ [e] }

/-- `PinWrite(p, l)` (R7): the pin's latch takes the level. -/
def pinWrite (p : OutPin) (l : Level) (s : State) : State :=
  match p with
  | .ncs => emit (.write .ncs l) { s with ncs := l }
  | .sclk => emit (.write .sclk l) { s with sclk := l }
  | .sdo => emit (.write .sdo l) { s with sdo := l }

/-- `PinMode(p, d)` (R7). -/
def pinMode (p : Pin) (d : Dir) (s : State) : State :=
  match p with
  | .ncs => emit (.mode .ncs d) { s with ncsDir := d }
  | .sclk => emit (.mode .sclk d) { s with sclkDir := d }
  | .sdi => emit (.mode .sdi d) { s with sdiDir := d }
  | .sdo => emit (.mode .sdo d) { s with sdoDir := d }

/-- The level the target gives at the `n`-th sample from here (R26): the pending answers in order, then free values. -/
def State.answer (s : State) (n : Nat) : Level := (s.sdi[n]?).getD (Config.sdiAnswer (s.sampled + n))

/-- `PinRead(SDI)` (R7, R26): the target's next answer, and the state after the sample. -/
def pinRead (s : State) : Level × State :=
  (s.answer 0, emit (.sample (s.answer 0)) { s with sdi := s.sdi.tail, sampled := s.sampled + 1 })

/-- `Delay_us` of a named parameter (R7, R34): nothing else happens during the wait. -/
def delay (t : DelayParam) (s : State) : State := emit (.delay t) s

/-- `OutCell(b)` (R110). -/
def outCell (x : Level) (s : State) : State :=
  delay .tOutHigh (pinWrite .sclk true (delay .tOutLow (pinWrite .sdo x (pinWrite .sclk false s))))

/-- `InCell()` (R112). -/
def inCell (s : State) : Level × State := pinRead (pinWrite .sclk true (pinWrite .sclk false s))

/-- One byte out (R81, R111): `TXSR` is loaded and its bits sent, bit 7 first. -/
def sendByte (x : Byte) (s : State) : State :=
  bitsDown.foldl (fun s i => outCell (bitOf s.txsr i) s) { s with txsr := x }

/-- `r[i] <- InCell()` (R113). -/
def shiftInBit (i : Fin Config.dataW) (p : Byte × State) : Byte × State :=
  let c := inCell p.2
  (placeBit p.1 i c.1, c.2)

/-- One byte in (R81, R113): the settle delay, then eight in cells from `r = 0`, bit 7 first. -/
def receiveByte (s : State) : Byte × State :=
  bitsDown.foldl (fun p i => shiftInBit i p) (0, delay .tInSettle s)

/-- `RX <- r` (R28). -/
def setRx (r : Byte) (s : State) : State := { s with rx := r, rxWritten := true }

/-- `B[k] <- r` (R30, D27). -/
def setB (k : Fin Config.burstLen) (r : Byte) (s : State) : State :=
  { s with b := s.b.set k.val r, bWritten := s.bWritten.set k.val true }

/-- Byte `k` of a burst (R133): one byte in, kept in `B[k]`. -/
def receiveBurstByte (k : Fin Config.burstLen) (s : State) : State :=
  let p := receiveByte s
  setB k p.1 p.2

/-- The latches take the command word's fields at acceptance (R29, R65). -/
def latchCommand (cw : CmdWord) (s : State) : State :=
  { s with op := opField cw, a := addrField cw, v := dataField cw }

/-- The first position of a command (R111, R113, R131 to R133, R150, R151). -/
def firstSeq (op : BitVec 3) : Seq :=
  if op = opShiftOut then ⟨.dataOut, 0, topBit⟩
  else if op = opShiftIn then ⟨.dataIn, 0, topBit⟩
  else if isRegisterOp op then ⟨.start, 0, topBit⟩
  else ⟨.pin, 0, topBit⟩

/-- Acceptance of a command (R29, R31, R169): the entry check of a wire command is recorded, the latches are loaded, and
the sequencer takes the command's first position, so that `BUSY = 1`. -/
def acceptCommand (cw : CmdWord) (s : State) : State :=
  let s1 := if isWireOp (opField cw) then checkEntry cw s else s
  { latchCommand cw s1 with seq := firstSeq (opField cw) }

/-- What a command returns to the host (R88). -/
def resultOf (op : BitVec 3) (s : State) : Returned :=
  if op = opShiftIn ∨ op = opReadReg then .byte s.rx
  else if op = opReadBurst then .burst s.b
  else .nothing

/-- Completion of the command in the latches (R31, R32, R33, R181): the sequencer rests, so that `BUSY = 0`, and the
pseudocode's local `r` is gone; `G_TXN_DONE` is set by a register command; the result goes to the host. -/
def completeCommand (s : State) : State :=
  { s with
    seq := Seq.atRest
    rxsr := 0
    txnDone := s.txnDone || isRegisterOp s.op
    returned := s.returned ++ [resultOf s.op s] }

/-- Where a command is presented while `BUSY = 1`, or by another agent (V3 of R166; R170, R176): the machine stops, the
violation recorded. -/
def stopReentry (cw : CmdWord) (s : State) : Host.Outcome State Fault Refusal :=
  .fault (.reentry (record (.reentry cw) s))

/-- One command as one step (R12, R169): refused entry while busy (V3); otherwise acceptance, the whole event sequence
of its rule, completion. -/
def performCommand (cw : CmdWord) (body : State → State) (s : State) : Host.Outcome State Fault Refusal :=
  if s.busy then stopReentry cw s
  else .next (completeCommand (body (acceptCommand cw s)))

/-- A register command (R130, R169): V3 first, then V5, where nothing is sent and nothing is masked (R90, D5), then as
any command. -/
def performRegisterCommand (i : Instr) (addr : Byte) (body : State → State) (s : State) :
    Host.Outcome State Fault Refusal :=
  if s.busy then stopReentry (encode i) s
  else if addressFits addr then performCommand (encode i) body s
  else .next (record (.addressOutOfRange addr) s)

/-- What SDO puts on the wire (R7, R25): its latch while `SDO_DIR = OUT`; while `IN` the block does not drive the pin. -/
def State.sdoWire (s : State) : Option Level :=
  match s.sdoDir with
  | .output => some s.sdo
  | .input => none

/-- The pin events of construction (R185), in the order R185 fixes. -/
def drivePinsAtConstruction (s : State) : State :=
  pinMode .sdi .input (pinWrite .sdo false (pinMode .sdo .output
    (pinWrite .sclk true (pinMode .sclk .output (pinWrite .ncs true (pinMode .ncs .output s))))))

end Sys2Proof.Machine
end

