-- ==== Sys2Proof/Machine/BitTransport.lean ====
section
/-! DEFINITION. The Bit-Level Transport (spec/40_bit_transport.md): SHIFT_OUT and SHIFT_IN. -/

namespace Sys2Proof.Machine

/-- The event sequence of SHIFT_OUT (R111): the byte latched in `V`, as one out byte. -/
def shiftOutBody (s : State) : State := sendByte s.v s

/-- The event sequence of SHIFT_IN (R113): one in byte, kept in `RX`. -/
def shiftInBody (s : State) : State :=
  let p := receiveByte s
  setRx p.1 p.2

/-- SHIFT_OUT b (R111). -/
def execShiftOut (b : Byte) (s : State) : Host.Outcome State Fault Refusal :=
  performCommand (encode (.shiftOut b)) shiftOutBody s

/-- SHIFT_IN (R113). -/
def execShiftIn (s : State) : Host.Outcome State Fault Refusal :=
  performCommand (encode .shiftIn) shiftInBody s

end Sys2Proof.Machine
end

