-- ==== Sys2Proof/Machine/ChipSelect.lean ====
section
/-! DEFINITION. The two commands that move chip-select (spec/42_chip_select_and_pins.md): CS_ASSERT and CS_RELEASE. -/

namespace Sys2Proof.Machine

/-- The event sequence of CS_ASSERT (R150). -/
def csAssertBody (s : State) : State := pinWrite .ncs false s

/-- The event sequence of CS_RELEASE (R151), with the ghost `G_TXN_DONE <- 0`. -/
def csReleaseBody (s : State) : State := { pinWrite .ncs true s with txnDone := false }

/-- CS_ASSERT (R150). -/
def execCsAssert (s : State) : Host.Outcome State Fault Refusal :=
  performCommand (encode .csAssert) csAssertBody s

/-- CS_RELEASE (R151). -/
def execCsRelease (s : State) : Host.Outcome State Fault Refusal :=
  performCommand (encode .csRelease) csReleaseBody s

end Sys2Proof.Machine
end

