-- ==== Sys2Proof/Machine/RegisterAccess.lean ====
section
/-! DEFINITION. The Register Access Layer (spec/41_register_access.md): READ_REG, WRITE_REG, READ_BURST. -/

namespace Sys2Proof.Machine

/-- The event sequence of READ_REG (R131). -/
def readRegBody (s : State) : State :=
  let s1 := sendByte (addressByte false s.a) (delay .tStart s)
  let p := receiveByte (delay .tPhase s1)
  setRx p.1 p.2

/-- The event sequence of WRITE_REG (R132). -/
def writeRegBody (s : State) : State :=
  let s1 := sendByte (addressByte true s.a) (delay .tStart s)
  sendByte s.v (delay .tPhase s1)

/-- The event sequence of READ_BURST (R133). -/
def readBurstBody (s : State) : State :=
  let s1 := sendByte (addressByte false s.a) (pinMode .sdo .output (delay .tStart s))
  let s2 := delay .tPhase (pinMode .sdo .input s1)
  pinMode .sdo .output (bytesUp.foldl (fun s k => receiveBurstByte k s) s2)

/-- READ_REG addr (R131). -/
def execReadReg (addr : Byte) (s : State) : Host.Outcome State Fault Refusal :=
  performRegisterCommand (.readReg addr) addr readRegBody s

/-- WRITE_REG addr, v (R132). -/
def execWriteReg (addr : Byte) (v : Byte) (s : State) : Host.Outcome State Fault Refusal :=
  performRegisterCommand (.writeReg addr v) addr writeRegBody s

/-- READ_BURST addr (R133). -/
def execReadBurst (addr : Byte) (s : State) : Host.Outcome State Fault Refusal :=
  performRegisterCommand (.readBurst addr) addr readBurstBody s

end Sys2Proof.Machine
end

