-- ==== Sys2Proof/Machine/Dispatch.lean ====
section
/-! DEFINITION. One arm per command (spec/30_encoding.md R88). -/

namespace Sys2Proof.Machine

def exec (i : Instr) (s : State) : Host.Outcome State Fault Refusal :=
  match i with
  | .csAssert => Sys2Proof.Machine.execCsAssert s
  | .csRelease => Sys2Proof.Machine.execCsRelease s
  | .shiftOut b => Sys2Proof.Machine.execShiftOut b s
  | .shiftIn => Sys2Proof.Machine.execShiftIn s
  | .readReg addr => Sys2Proof.Machine.execReadReg addr s
  | .writeReg addr v => Sys2Proof.Machine.execWriteReg addr v s
  | .readBurst addr => Sys2Proof.Machine.execReadBurst addr s

end Sys2Proof.Machine
end

