-- ==== Sys2Proof/Machine/Sequencer.lean ====
section
/-! DEFINITION. The sequencer (spec/10_state.md R31): the same commands position by position. Each `tick` performs the
events that belong to the position `SEQ` stands at and moves `SEQ` to the next one. The list of positions depends on the
latched code alone (spec/40_bit_transport.md R115). -/

namespace Sys2Proof.Machine

/-- The position after `q` in the command `op` (R31 and the Sequencer line of R111, R113, R131 to R133, R150, R151). -/
def nextSeq (op : BitVec 3) (q : Seq) : Seq :=
  match q.phase with
  | .idle => Seq.atRest
  | .pin => Seq.atRest
  | .start => ⟨.addr, 0, topBit⟩
  | .addr => if q.i = 0 then ⟨.gap, 0, topBit⟩ else ⟨.addr, 0, q.i - 1⟩
  | .gap => if op = opWriteReg then ⟨.dataOut, 0, topBit⟩ else ⟨.dataIn, 0, topBit⟩
  | .dataOut => if q.i = 0 then Seq.atRest else ⟨.dataOut, 0, q.i - 1⟩
  | .dataIn =>
    if q.i = 0 then (if op = opReadBurst ∧ q.k ≠ lastByte then ⟨.dataIn, q.k + 1, topBit⟩ else Seq.atRest)
    else ⟨.dataIn, q.k, q.i - 1⟩

/-- An out cell of the byte in `TXSR`, which is loaded before the first of the eight (R27). -/
def tickOut (x : Byte) (s : State) : State :=
  let s1 := if s.seq.i = topBit then { s with txsr := x } else s
  outCell (bitOf s1.txsr s1.seq.i) s1

/-- An in cell: before the first of the eight the settle delay and `r <- 0`; after the last, `r` goes to `RX` or `B[k]`,
and after the last of a burst SDO is an output again (R113, R133). -/
def tickIn (s : State) : State :=
  let s1 := if s.seq.i = topBit then { delay .tInSettle s with rxsr := 0 } else s
  let c := inCell s1
  let r := placeBit s1.rxsr s1.seq.i c.1
  let s2 : State := { c.2 with rxsr := r }
  if s.seq.i = 0 then
    if s.op = opReadBurst then
      (let s3 := setB s.seq.k r s2
       if s.seq.k = lastByte then pinMode .sdo .output s3 else s3)
    else setRx r s2
  else s2

/-- The events of the position `SEQ` stands at. -/
def positionEvents (s : State) : State :=
  match s.seq.phase with
  | .idle => s
  | .start => if s.op = opReadBurst then pinMode .sdo .output (delay .tStart s) else delay .tStart s
  | .addr => tickOut (addressByte (s.op == opWriteReg) s.a) s
  | .gap => if s.op = opReadBurst then delay .tPhase (pinMode .sdo .input s) else delay .tPhase s
  | .dataOut => tickOut s.v s
  | .dataIn => tickIn s
  | .pin =>
    if s.op = opCsRelease then { pinWrite .ncs true s with txnDone := false } else pinWrite .ncs false s

/-- One position of the command in progress; at rest the block holds its pins and does nothing (R178). -/
def tick (s : State) : State :=
  if s.busy then
    (let s1 := positionEvents s
     let q := nextSeq s.op s.seq
     if q.phase = .idle then completeCommand s1 else { s1 with seq := q })
  else s

/-- `n` positions. -/
def ticks : Nat → State → State
  | 0, s => s
  | n + 1, s => ticks n (tick s)

/-- The positions `SEQ` stands at before each of `n` ticks. -/
def positions : Nat → State → List Seq
  | 0, _ => []
  | n + 1, s => s.seq :: positions n (tick s)

/-- The eight positions of one byte, bit 7 first (R31). -/
def bytePositions (ph : Phase) (k : Fin Config.burstLen) : List Seq := bitsDown.map (fun i => ⟨ph, k, i⟩)

/-- The positions of a command, in the words of its rule's Sequencer line. -/
def positionsOf : Instr → List Seq
  | .csAssert => [⟨.pin, 0, topBit⟩]
  | .csRelease => [⟨.pin, 0, topBit⟩]
  | .shiftOut _ => bytePositions .dataOut 0
  | .shiftIn => bytePositions .dataIn 0
  | .readReg _ => ⟨.start, 0, topBit⟩ :: bytePositions .addr 0 ++ ⟨.gap, 0, topBit⟩ :: bytePositions .dataIn 0
  | .writeReg _ _ => ⟨.start, 0, topBit⟩ :: bytePositions .addr 0 ++ ⟨.gap, 0, topBit⟩ :: bytePositions .dataOut 0
  | .readBurst _ =>
    ⟨.start, 0, topBit⟩ :: bytePositions .addr 0 ++ ⟨.gap, 0, topBit⟩ :: bytesUp.flatMap (bytePositions .dataIn)

end Sys2Proof.Machine
end

