-- ==== Sys2Proof/Machine/Port.lean ====
section
/-! DEFINITION. The block's host port (spec/60_exceptions.md R181): a command word or a value of the command type, a
wait, a read of a result register or of `BUSY`; and what is fetched next, which on this hardware is what the host presents next
(spec/20_memory.md R65: the block fetches nothing). -/

namespace Sys2Proof.Machine

/-- What a result register holds (R28, R30). -/
def State.hostReg (s : State) : HostReg → Byte
  | .rx => s.rx
  | .b k => s.b[k.val]

/-- Whether some command has written a result register since reset (R36). -/
def State.hostRegWritten (s : State) : HostReg → Bool
  | .rx => s.rxWritten
  | .b k => s.bWritten[k.val]

/-- A result read (R181): no effect on the block; of a register nothing has written it is V6 and returns what the register
holds (R166). -/
def hostRead (r : HostReg) (s : State) : State :=
  let s1 := if s.hostRegWritten r then s else record (.unwrittenRead r) s
  { s1 with returned := s1.returned ++ [.byte (s.hostReg r)] }

/-- A read of `BUSY` (R20, R31, R32): the flag goes to the host, nothing else changes. DESIGN CHOICE (log 24): presented, like
every host action, when the command before has completed, so that a run reads 0, as R32 says of a blocking host. -/
def hostReadBusy (s : State) : State := { s with returned := s.returned ++ [.flag s.busy] }

/-- A command word at the port (R87, R90, R169): V3 while busy; a word that is no command is V4, with no pin event;
otherwise the command it stands for. -/
def presentWord (cw : CmdWord) (s : State) : Host.Outcome State Fault Refusal :=
  if s.busy then stopReentry cw s
  else match decode cw with
    | .ok i => exec i s
    | .error _ => .next (record (.reservedCommand cw) s)

/-- One host action at the port (R94, R181). A wait leaves no event; a command of another agent is V3 (R166, R176). -/
def present (x : HostAction) (s : State) : Host.Outcome State Fault Refusal :=
  match x with
  | .word cw => presentWord cw s
  | .call i => exec i s
  | .waitUs _ => .next s
  | .waitMs _ => .next s
  | .read r => .next (hostRead r s)
  | .readBusy => .next (hostReadBusy s)
  | .intruder cw => stopReentry cw s

/-- A list of host actions, each presented when the one before has completed (R182), as long as none stops the machine. -/
def presentAll : List HostAction → State → Host.Outcome State Fault Refusal
  | [], s => .next s
  | x :: xs, s =>
    match present x s with
    | .next t => presentAll xs t
    | .fault f => .fault f
    | .refused r => .refused r

/-- The next step (R12, R176, R178, R182): another agent's command is caught as it comes; while a command is in progress
the block performs its next position and accepts nothing; at rest it takes the host's next action, and with none it holds
its pins and does nothing. -/
def advance (s : State) : Host.Outcome State Fault Refusal :=
  match s.inbox with
  | [] => .next (tick s)
  | .intruder cw :: rest => stopReentry cw { s with inbox := rest }
  | x :: rest => if s.busy then .next (tick s) else present x { s with inbox := rest }

/-- Puts a command word first among what the host does next. A number the word's 18 bits cannot hold is no word. -/
def placeWord (s : State) (nbits w : Nat) : State :=
  let bits := w % 2 ^ nbits
  if bits < 2 ^ Config.cmdW then { s with inbox := .word (BitVec.ofNat Config.cmdW bits) :: s.inbox } else s

end Sys2Proof.Machine
end

