-- ==== Sys2Proof/Machine/Step.lean ====
section
/-! DEFINITION. One step, and the state in which the next step runs a given command word. A program comes to run from
`State.reset` when the host presents its commands one by one (spec/60_exceptions.md R182): no step precedes the first
command, and with nothing presented a step changes nothing (R178, R185). -/

namespace Sys2Proof.Machine

/-- One step of the machine: one whole command of the host at rest (R12), one position of a command in progress (R31). -/
def step (s : State) : Host.Outcome State Fault Refusal := advance s

/-- `s` with the command word `w` presented next. -/
def State.withFetchWord (s : State) (nbits w : Nat) : State := placeWord s nbits w

end Sys2Proof.Machine
end

