-- ==== Sys2Proof/Machine/HostSequences.lean ====
section
/-! DEFINITION. Sequences of host actions the spec names: the pseudo-instructions (spec/30_encoding.md R94), the bus reset
(spec/70_reset_and_hazards.md R187), the start-up sequence and its link poll (R188, R200). None is a command of the block;
values the source does not give are parameters. -/

namespace Sys2Proof.Machine

/-- The pseudo-instructions (R94). -/
inductive Pseudo where
  | waitUs (n : Nat)
  | waitMs (n : Nat)
  | xread (addr : Byte)
  | xwrite (addr : Byte) (v : Byte)
  | xburst (addr : Byte)
  | xshadow (addr : Byte) (shadow : Byte) (v : Byte)
  | busReset
deriving DecidableEq, Repr

/-- The bus reset: chip-select high, low, high, low, a wait after each level (R94, R187). -/
def busReset : List HostAction :=
  [.call .csRelease, .waitMs Config.tRstMs, .call .csAssert, .waitMs Config.tRstMs,
   .call .csRelease, .waitMs Config.tRstMs, .call .csAssert, .waitMs Config.tRstMs]

/-- A command between one assertion and one release of chip-select: the guarded form (R94, R138). -/
def guarded (i : Instr) : List HostAction := [.call .csAssert, .call i, .call .csRelease]

/-- The expansions (R94). -/
def Pseudo.expand : Pseudo → List HostAction
  | .waitUs n => [.waitUs n]
  | .waitMs n => [.waitMs n]
  | .xread addr => guarded (.readReg addr)
  | .xwrite addr v => guarded (.writeReg addr v)
  | .xburst addr => guarded (.readBurst addr)
  | .xshadow addr shadow v => guarded (.writeReg addr v) ++ guarded (.writeReg shadow (~~~v))
  | .busReset => Sys2Proof.Machine.busReset

/-- The address operands of a pseudo-instruction are 7-bit values (R52). -/
def Pseudo.wellFormed : Pseudo → Bool
  | .waitUs _ => true
  | .waitMs _ => true
  | .xread addr => addrInRange addr
  | .xwrite addr _ => addrInRange addr
  | .xburst addr => addrInRange addr
  | .xshadow addr shadow _ => addrInRange addr && addrInRange shadow
  | .busReset => true

/-- The guarded register transactions (R154): the `X` forms, all but the bus reset and the waits. -/
def Pseudo.isGuarded : Pseudo → Bool
  | .xread _ => true
  | .xwrite _ _ => true
  | .xburst _ => true
  | .xshadow _ _ _ => true
  | .waitUs _ => false
  | .waitMs _ => false
  | .busReset => false

/-- The addresses and values of the start-up sequence, none of which is in the source (R188, N10). -/
structure StartupParams where
  wakeReg : Byte
  wakeValue : Byte
  obsReg : Byte
  clearValue : Byte
  config : List (Byte × Byte)
  probe : Vector Byte 4
  laserCtl : Byte
  laserCtlShadow : Byte
  laserCtlValue : Byte
  laserPwr : Byte
  laserPwrShadow : Byte
  laserPwrValue : Byte
  mainConfig : Byte
  mainConfigValue : Byte
  linkMask : Byte
deriving DecidableEq, Repr

/-- `Reset` to `ResolutionConfig` of the start-up sequence (R188). The wake write runs under the last low level of the bus
reset (C10). -/
def startupConfigure (p : StartupParams) : List HostAction :=
  busReset
  ++ [.call (.writeReg p.wakeReg p.wakeValue), .call .csRelease, .waitMs Config.tPowerUpMs]
  ++ guarded (.writeReg p.obsReg p.clearValue) ++ [.waitUs Config.tFrameUs] ++ guarded (.readReg p.obsReg)
  ++ p.config.flatMap (fun c => guarded (.writeReg c.1 c.2))
  ++ p.probe.toList.flatMap (fun r => guarded (.readReg r))
  ++ (Pseudo.xshadow p.laserCtl p.laserCtlShadow p.laserCtlValue).expand
  ++ (Pseudo.xshadow p.laserPwr p.laserPwrShadow p.laserPwrValue).expand
  ++ guarded (.writeReg p.mainConfig p.mainConfigValue)

/-- The link poll (R188, R200): at most `n` reads of the motion status register, until the tested bit is 1; on
exhaustion the sequence goes on. -/
def linkPoll (mask : Byte) : Nat → State → Host.Outcome State Fault Refusal
  | 0, s => .next s
  | n + 1, s =>
    match presentAll (guarded (.readReg Config.regMotion)) s with
    | .next t => if t.rx &&& mask = 0 then linkPoll mask n t else .next t
    | .fault f => .fault f
    | .refused r => .refused r

/-- `IdentityVerify` and `Ready` (R188): four reads in the source's order, never a stop, and a last release. -/
def startupFinish : List HostAction :=
  Config.identityRegs.flatMap (fun r => guarded (.readReg r)) ++ [.call .csRelease]

/-- The start-up sequence as a host program over the block (R188). -/
def startup (p : StartupParams) (s : State) : Host.Outcome State Fault Refusal :=
  match presentAll (startupConfigure p) s with
  | .next t =>
    (match linkPoll p.linkMask Config.linkRetryCap t with
     | .next u => presentAll startupFinish u
     | .fault f => .fault f
     | .refused r => .refused r)
  | .fault f => .fault f
  | .refused r => .refused r

end Sys2Proof.Machine
end

