-- ==== Sys2Proof/Machine/Wire.lean ====
section
/-! DEFINITION. What the wire carries, read off the pin trace alone: the levels and the direction the trace leaves, the
bits a listener takes at rising clock edges, edge and event counts (spec/70_reset_and_hazards.md R203), and minimum
durations (spec/00_scope.md R9; R193 to R196, R202). The traces of the wire formats (spec/30_encoding.md R80 to R86)
stand first. -/

namespace Sys2Proof.Machine

/-- The out cell's events (R80, R110). -/
def outCellEvents (x : Level) : List Event :=
  [.write .sclk false, .write .sdo x, .delay .tOutLow, .write .sclk true, .delay .tOutHigh]

/-- The in cell's events (R80, R112). -/
def inCellEvents (x : Level) : List Event := [.write .sclk false, .write .sclk true, .sample x]

/-- An out byte's events (R81): eight out cells, bit 7 first. -/
def outByteEvents (x : Byte) : List Event := bitsDown.flatMap (fun i => outCellEvents (bitOf x i))

/-- An in byte's events (R81): one settle delay, then eight in cells, bit 7 first. -/
def inByteEvents (x : Byte) : List Event := .delay .tInSettle :: bitsDown.flatMap (fun i => inCellEvents (bitOf x i))

/-- The read frame (R84, R131). -/
def readFrame (addr : Addr) (d : Byte) : List Event :=
  .delay .tStart :: outByteEvents (addressByte false addr) ++ .delay .tPhase :: inByteEvents d

/-- The write frame (R85, R132). -/
def writeFrame (addr : Addr) (v : Byte) : List Event :=
  .delay .tStart :: outByteEvents (addressByte true addr) ++ .delay .tPhase :: outByteEvents v

/-- The burst frame (R86, R133). -/
def burstFrame (addr : Addr) (d : Vector Byte Config.burstLen) : List Event :=
  .delay .tStart :: .mode .sdo .output :: outByteEvents (addressByte false addr)
    ++ .mode .sdo .input :: .delay .tPhase :: bytesUp.flatMap (fun k => inByteEvents d[k.val])
    ++ [.mode .sdo .output]

/-- The byte made of the eight answers that follow the first `n` (R113): the first of them in bit 7, the last in bit 0. -/
def State.answerByte (s : State) (n : Nat) : Byte :=
  bitsDown.foldl (fun r i => placeBit r i (s.answer (n + (topBit.val - i.val)))) 0

/-- The eight bytes made of the next 64 answers (R133). -/
def State.answerBurst (s : State) : Vector Byte Config.burstLen :=
  Vector.ofFn (fun k : Fin Config.burstLen => s.answerByte (Config.dataW * k.val))

/-- The levels and the direction a listener on the pins knows. -/
structure Wire where
  ncs : Level
  sclk : Level
  sdo : Level
  sdoDir : Dir
deriving DecidableEq, Repr

/-- The pins as the latches drive them. -/
def State.wire (s : State) : Wire := ⟨s.ncs, s.sclk, s.sdo, s.sdoDir⟩

/-- What one event does to the pins (R7, R10). -/
def Wire.after (w : Wire) : Event → Wire
  | .write .ncs l => { w with ncs := l }
  | .write .sclk l => { w with sclk := l }
  | .write .sdo l => { w with sdo := l }
  | .mode .sdo d => { w with sdoDir := d }
  | .mode _ _ => w
  | .sample _ => w
  | .delay _ => w

/-- What a list of events leaves on the pins. -/
def Wire.afterAll (w : Wire) (es : List Event) : Wire := es.foldl Wire.after w

/-- The level of the data-out pin on the wire; `none` where the block does not drive it (R25). -/
def Wire.dataOut (w : Wire) : Option Level :=
  match w.sdoDir with
  | .output => some w.sdo
  | .input => none

/-- What the data-out pin carries at each rising edge of the clock, in order: the bits a target takes (R80, R110). -/
def risingBits : Wire → List Event → List (Option Level)
  | _, [] => []
  | w, e :: es =>
    if e = .write .sclk true ∧ w.sclk = false then w.dataOut :: risingBits (w.after e) es
    else risingBits (w.after e) es

/-- The levels of the clock writes that are real edges, in order: `false` a falling edge, `true` a rising edge (R114). -/
def clockEdges : Wire → List Event → List Level
  | _, [] => []
  | w, e :: es =>
    match e with
    | .write .sclk l => if w.sclk = l then clockEdges (w.after e) es else l :: clockEdges (w.after e) es
    | _ => clockEdges (w.after e) es

/-- The event sets a pin's direction. -/
def Event.isMode : Event → Bool
  | .mode _ _ => true
  | .write _ _ => false
  | .sample _ => false
  | .delay _ => false

/-- The event does not write SDO while the clock is high (R195). -/
def Event.quiet (w : Wire) : Event → Bool
  | .write .sdo _ => !w.sclk
  | .write _ _ => true
  | .mode _ _ => true
  | .sample _ => true
  | .delay _ => true

/-- SDO is never written while the clock is high (R195). -/
def sdoQuietWhileHigh : Wire → List Event → Bool
  | _, [] => true
  | w, e :: es => e.quiet w && sdoQuietWhileHigh (w.after e) es

/-- The events before the first falling write of the clock (R193, R194). -/
def untilFall : List Event → List Event
  | [] => []
  | e :: es => if e = .write .sclk false then [] else e :: untilFall es

/-- The events after the `n`-th rising write of the clock (R194). -/
def afterRise : Nat → List Event → List Event
  | 0, es => es
  | _ + 1, [] => []
  | n + 1, e :: es => if e = .write .sclk true then afterRise n es else afterRise (n + 1) es

/-- How often each kind of event occurs (the columns of R203). -/
structure EventCounts where
  sclkLow : Nat
  sclkHigh : Nat
  sdoWrites : Nat
  samples : Nat
  sdoModes : Nat
  ncsWrites : Nat
  delays : Nat
deriving DecidableEq, Repr

/-- The counts of one event. -/
def EventCounts.ofEvent : Event → EventCounts
  | .write .sclk false => ⟨1, 0, 0, 0, 0, 0, 0⟩
  | .write .sclk true => ⟨0, 1, 0, 0, 0, 0, 0⟩
  | .write .sdo _ => ⟨0, 0, 1, 0, 0, 0, 0⟩
  | .sample _ => ⟨0, 0, 0, 1, 0, 0, 0⟩
  | .mode .sdo _ => ⟨0, 0, 0, 0, 1, 0, 0⟩
  | .mode _ _ => ⟨0, 0, 0, 0, 0, 0, 0⟩
  | .write .ncs _ => ⟨0, 0, 0, 0, 0, 1, 0⟩
  | .delay _ => ⟨0, 0, 0, 0, 0, 0, 1⟩

/-- Counts add up column by column. -/
def EventCounts.add (x y : EventCounts) : EventCounts :=
  ⟨x.sclkLow + y.sclkLow, x.sclkHigh + y.sclkHigh, x.sdoWrites + y.sdoWrites, x.samples + y.samples,
   x.sdoModes + y.sdoModes, x.ncsWrites + y.ncsWrites, x.delays + y.delays⟩

/-- The counts of a list of events. -/
def countEvents : List Event → EventCounts
  | [] => ⟨0, 0, 0, 0, 0, 0, 0⟩
  | e :: es => (EventCounts.ofEvent e).add (countEvents es)

/-- The value of a delay parameter under a timing (R5). -/
def DelayParam.micros (τ : Timing) : DelayParam → Nat
  | .tStart => τ.tStart
  | .tPhase => τ.tPhase
  | .tOutLow => τ.tOutLow
  | .tOutHigh => τ.tOutHigh
  | .tInSettle => τ.tInSettle

/-- The least time an event can take, in µs: a delay its parameter, a pin primitive zero (R9). -/
def Event.minMicros (τ : Timing) : Event → Nat
  | .delay t => t.micros τ
  | .write _ _ => 0
  | .mode _ _ => 0
  | .sample _ => 0

/-- The least time a list of events can take (R202). -/
def minDuration (τ : Timing) (es : List Event) : Nat := (es.map (Event.minMicros τ)).sum

/-- `ds` are durations the events may have had (R9): one each, none below the event's lower bound. DESIGN CHOICE (log 23):
whole numbers of microseconds; the source gives no resolution (N19), R9 only that they are at least 0. -/
def Admissible (τ : Timing) (es : List Event) (ds : List Nat) : Prop :=
  List.Forall₂ (fun e d => e.minMicros τ ≤ d) es ds

/-- The event's kind with the levels that data can change left out (R115). -/
def Event.shape : Event → Event
  | .write .sdo _ => .write .sdo false
  | .sample _ => .sample false
  | .write .ncs l => .write .ncs l
  | .write .sclk l => .write .sclk l
  | .mode p d => .mode p d
  | .delay t => .delay t

end Sys2Proof.Machine
end

