-- ==== Sys2Proof/Safety.lean ====
section
/-! DEFINITION. What counts as a safe run (spec/60_exceptions.md R170, R171, R182), in the terms claims use, and the
invariants of the machine (spec/10_state.md R31, R38; spec/70_reset_and_hazards.md R195). -/

namespace Sys2Proof.Machine

/-- The run is over: the last command has completed and the host presents nothing more (R182). -/
def State.over (s : State) : Bool := !s.busy && s.inbox.isEmpty

/-- A final end state (R182): the run is over and no violation is recorded. -/
def State.final (s : State) : Bool := s.over && s.viol.isEmpty

/-- A faulted state (R170, R182): some violation is recorded; no claim follows from it. -/
def State.faulted (s : State) : Bool := !s.viol.isEmpty

/-- The positions `SEQ` can stand at with code `op` in the latch (R31): at rest, or in the list of a command. -/
def Seq.allowed (op : BitVec 3) (q : Seq) : Bool :=
  match q.phase with
  | .idle => q == Seq.atRest
  | .pin => (op == opCsAssert || op == opCsRelease) && q.k == 0 && q.i == topBit
  | .start => isRegisterOp op && q.k == 0 && q.i == topBit
  | .addr => isRegisterOp op && q.k == 0
  | .gap => isRegisterOp op && q.k == 0 && q.i == topBit
  | .dataOut => (op == opShiftOut || op == opWriteReg) && q.k == 0
  | .dataIn => (op == opShiftIn || op == opReadReg || op == opReadBurst) && (q.k == 0 || op == opReadBurst)

/-- The direction SDO has at a position (R25, R133): an input during the data phase of a burst, an output elsewhere. -/
def Seq.dirAt (op : BitVec 3) (q : Seq) : Dir :=
  if op = opReadBurst ∧ q.phase = .dataIn then .input else .output

/-- The pins between positions (R23, R25, R38 and R36): the clock rests high; SDO is an output but in the data phase of a
burst; the other directions are those of construction; `SEQ` stands at a position of the latched command. -/
structure PinsAtRest (s : State) : Prop where
  sclkHigh : s.sclk = true
  sdoDir : s.sdoDir = s.seq.dirAt s.op
  ncsDir : s.ncsDir = .output
  sclkDir : s.sclkDir = .output
  sdiDir : s.sdiDir = .input
  seqAllowed : s.seq.allowed s.op = true

/-- The bit of `TXSR` that SDO holds between positions: within an out byte the one sent last, elsewhere bit 0 (R38, R110). -/
def Seq.lastBit (q : Seq) : Fin Config.dataW :=
  match q.phase with
  | .addr => if q.i = topBit then 0 else q.i + 1
  | .dataOut => if q.i = topBit then 0 else q.i + 1
  | .idle => 0
  | .start => 0
  | .gap => 0
  | .dataIn => 0
  | .pin => 0

/-- SDO holds the bit sent last; between commands bit 0 of the last byte sent (R38). -/
def SdoHoldsLastBit (s : State) : Prop := s.sdo = bitOf s.txsr s.seq.lastBit

/-- The pins as reset leaves them (R36). -/
def Wire.reset : Wire := State.reset.wire

/-- The latches are what the trace since reset says they are (R7, R10). -/
def TraceExplainsPins (s : State) : Prop := s.wire = Wire.reset.afterAll s.trace

/-- G3 (R195) over the whole trace: SDO was never written while the clock was high. -/
def DataQuiet (s : State) : Prop := sdoQuietWhileHigh Wire.reset s.trace = true

/-- `G_VIOL` after the entry check of a wire command, in the words of R166 and R169: V1 with `NCS = 1`; else V2 under
`CS_STRICT` with `G_TXN_DONE = 1`; else unchanged. -/
def State.violAfterEntry (s : State) (cw : CmdWord) : List Violation :=
  if s.ncs = true then (record (.ncsHighOnEntry cw) s).viol
  else if Config.csStrict = true ∧ s.txnDone = true then (record (.transactionNotDelimited cw) s).viol
  else s.viol

/-- From acceptance the sequencer stands at exactly the positions `ps`, one after another, `BUSY = 1` at each, and then
rests, `BUSY = 0` (R31, R32). -/
def SequencerVisits (s : State) (ps : List Seq) : Prop :=
  positions ps.length s = ps ∧ (∀ q ∈ ps, q.phase ≠ .idle) ∧
    (ticks ps.length s).seq = Seq.atRest ∧ (ticks ps.length s).busy = false

/-- The address operands of a start-up sequence are 7-bit values (R52). -/
def StartupParams.wellFormed (p : StartupParams) : Bool :=
  addrInRange p.wakeReg && addrInRange p.obsReg && p.config.all (fun c => addrInRange c.1)
    && p.probe.toList.all addrInRange && addrInRange p.laserCtl && addrInRange p.laserCtlShadow
    && addrInRange p.laserPwr && addrInRange p.laserPwrShadow && addrInRange p.mainConfig

end Sys2Proof.Machine
end

