-- ==== Sys2Proof/Certificates/Slice0/Obligations.lean ====
section
/-! DEFINITION. The statements for the provers, from the numbered rules of spec/. In the statements of the seven commands
the next state is written whole: a field not named is unchanged. A field set to its own value in `t` (an unused latch, log
10; the local `r`, log 8) is left unsaid. The answers of the target are free values (log 2): each statement holds for all. -/

open Sys2Proof Sys2Proof.Machine

/-! ### Encoding -/

/-- Decoding an encoded well-formed command gives it back, for every command and every operand value (R87, R88, R89). -/
def Obligations.EncodeThenDecode : Prop :=
  ∀ i : Instr, i.wellFormed = true → decode (encode i) = .ok i

/-- Every accepted word is the word of a well-formed command: each word has one meaning and no bit of it is ignored. -/
def Obligations.DecodeThenEncode : Prop :=
  ∀ (w : CmdWord) (i : Instr), decode w = .ok i → i.wellFormed = true ∧ encode i = w

/-- The refused words are exactly those of R90: `op = 000`, or a non-zero field the command does not use. -/
def Obligations.ReservedWordsRefused : Prop :=
  ∀ w : CmdWord, (∃ e, decode w = .error e) ↔
    (opField w = 0b000#3 ∨
      (opField w ∈ [0b001#3, 0b010#3, 0b011#3, 0b100#3] ∧ addrField w ≠ 0#7) ∨
      (opField w ∈ [0b001#3, 0b010#3, 0b100#3, 0b101#3, 0b111#3] ∧ dataField w ≠ 0#8))

/-- An accepted word matches exactly one row of the opcode table, its command's; a refused word matches none. -/
def Obligations.OpcodeTableAgrees : Prop :=
  ∀ w : CmdWord,
    (∀ i, decode w = .ok i → ∃ r, opcodeTable.filter (fun r => r.fits w) = [r] ∧ r.mnemonic = i.mnemonic) ∧
    (∀ e, decode w = .error e → opcodeTable.filter (fun r => r.fits w) = [])

/-- Words of 95_test_vectors.md section 2.5 decode to the commands they stand for, and refused ones are refused. -/
def Obligations.SpecWordsDecode : Prop :=
  decode 0x08000#18 = .ok .csAssert ∧ decode 0x10000#18 = .ok .csRelease ∧
  decode 0x180A5#18 = .ok (.shiftOut 0xA5#8) ∧ decode 0x20000#18 = .ok .shiftIn ∧
  decode 0x28200#18 = .ok (.readReg 0x02#8) ∧ decode 0x33A5A#18 = .ok (.writeReg 0x3A#8 0x5A#8) ∧
  decode 0x3C200#18 = .ok (.readBurst 0x42#8) ∧ decode 0x00000#18 = .error .reservedOp ∧
  decode 0x08001#18 = .error .unusedDataField ∧ decode 0x18100#18 = .error .unusedAddrField

/-- The address byte (R134, A2): for a read the address with bit 7 clear, for a write with bit 7 set, bits 6 to 0 always
the address. -/
def Obligations.AddressByteLaw : Prop :=
  ∀ addr : Addr,
    addressByte false addr = addr.setWidth 8 ∧ addressByte true addr = 0x80#8 ||| addr.setWidth 8 ∧
    ∀ dir, (addressByte dir addr).getLsbD 7 = dir ∧ (addressByte dir addr).setWidth 7 = addr

/-! ### The seven commands: word, next state, positions -/

/-- CS_ASSERT (R150). -/
def Obligations.CsAssertRule : Prop :=
  encode .csAssert = 0b001#3 ++ 0b0000000#7 ++ 0b00000000#8 ∧
  ∀ s : State, s.busy = false →
    (∃ t, exec .csAssert s = .next t ∧
      t = { s with
            ncs := false, seq := Seq.atRest, op := 0b001#3, trace := s.trace ++ [.write .ncs false]
            returned := s.returned ++ [.nothing], a := t.a, v := t.v, rxsr := t.rxsr }) ∧
    SequencerVisits (acceptCommand (encode .csAssert) s) [⟨.pin, 0, 7⟩]

/-- CS_RELEASE (R151). -/
def Obligations.CsReleaseRule : Prop :=
  encode .csRelease = 0b010#3 ++ 0b0000000#7 ++ 0b00000000#8 ∧
  ∀ s : State, s.busy = false →
    (∃ t, exec .csRelease s = .next t ∧
      t = { s with
            ncs := true, txnDone := false, seq := Seq.atRest, op := 0b010#3
            trace := s.trace ++ [.write .ncs true], returned := s.returned ++ [.nothing]
            a := t.a, v := t.v, rxsr := t.rxsr }) ∧
    SequencerVisits (acceptCommand (encode .csRelease) s) [⟨.pin, 0, 7⟩]

/-- SHIFT_OUT (R111): eight out cells carrying `b`, bit 7 first, with the marks of V1 and V2. -/
def Obligations.ShiftOutRule : Prop :=
  ∀ (b : Byte) (s : State), s.busy = false →
    encode (.shiftOut b) = 0b011#3 ++ 0b0000000#7 ++ b ∧
    (∃ t, exec (.shiftOut b) s = .next t ∧
      t = { s with
            txsr := b, sclk := true, sdo := b.getLsbD 0, seq := Seq.atRest, op := 0b011#3, v := b
            viol := s.violAfterEntry (encode (.shiftOut b)), trace := s.trace ++ outByteEvents b
            returned := s.returned ++ [.nothing], a := t.a, rxsr := t.rxsr }) ∧
    SequencerVisits (acceptCommand (encode (.shiftOut b)) s) (bytePositions .dataOut 0)

/-- SHIFT_IN (R113): the settle delay and eight in cells; `RX` is made of the eight samples, the first in bit 7. -/
def Obligations.ShiftInRule : Prop :=
  encode .shiftIn = 0b100#3 ++ 0b0000000#7 ++ 0b00000000#8 ∧
  ∀ s : State, s.busy = false →
    (∃ t, exec .shiftIn s = .next t ∧
      (∀ n : Fin 8, t.rx.getLsbD (7 - n.val) = s.answer n.val) ∧
      t = { s with
            rx := t.rx, rxWritten := true, sclk := true, seq := Seq.atRest, op := 0b100#3
            sdi := s.sdi.drop 8, sampled := s.sampled + 8
            viol := s.violAfterEntry (encode .shiftIn), trace := s.trace ++ inByteEvents t.rx
            returned := s.returned ++ [.byte t.rx], a := t.a, v := t.v, rxsr := t.rxsr }) ∧
    SequencerVisits (acceptCommand (encode .shiftIn) s) (bytePositions .dataIn 0)

/-- READ_REG (R131): the read frame, `RX` made of the eight samples, `SDO` left at `A[0]`, `SDO_DIR` untouched; V1, V2 and
V5. -/
def Obligations.ReadRegRule : Prop :=
  ∀ (addr : Byte) (s : State), s.busy = false →
    (addr.toNat < 0x80 → encode (.readReg addr) = 0b101#3 ++ addr.setWidth 7 ++ 0b00000000#8 ∧
      (∃ t, exec (.readReg addr) s = .next t ∧
        (∀ n : Fin 8, t.rx.getLsbD (7 - n.val) = s.answer n.val) ∧
        t = { s with
              txsr := addr, rx := t.rx, rxWritten := true, sclk := true, sdo := addr.getLsbD 0
              txnDone := true, seq := Seq.atRest, op := 0b101#3, a := addr.setWidth 7
              sdi := s.sdi.drop 8, sampled := s.sampled + 8
              viol := s.violAfterEntry (encode (.readReg addr))
              trace := s.trace ++ readFrame (addr.setWidth 7) t.rx
              returned := s.returned ++ [.byte t.rx], v := t.v, rxsr := t.rxsr }) ∧
      SequencerVisits (acceptCommand (encode (.readReg addr)) s)
        (⟨.start, 0, 7⟩ :: bytePositions .addr 0 ++ ⟨.gap, 0, 7⟩ :: bytePositions .dataIn 0)) ∧
    (0x80 ≤ addr.toNat → exec (.readReg addr) s = .next (record (.addressOutOfRange addr) s))

/-- WRITE_REG (R132): the write frame; SDI is never sampled; V1, V2 and V5. -/
def Obligations.WriteRegRule : Prop :=
  ∀ (addr v : Byte) (s : State), s.busy = false →
    (addr.toNat < 0x80 → encode (.writeReg addr v) = 0b110#3 ++ addr.setWidth 7 ++ v ∧
      (∃ t, exec (.writeReg addr v) s = .next t ∧
        t = { s with
              txsr := v, sclk := true, sdo := v.getLsbD 0, txnDone := true, seq := Seq.atRest
              op := 0b110#3, a := addr.setWidth 7, v := v
              viol := s.violAfterEntry (encode (.writeReg addr v))
              trace := s.trace ++ writeFrame (addr.setWidth 7) v
              returned := s.returned ++ [.nothing], rxsr := t.rxsr }) ∧
      SequencerVisits (acceptCommand (encode (.writeReg addr v)) s)
        (⟨.start, 0, 7⟩ :: bytePositions .addr 0 ++ ⟨.gap, 0, 7⟩ :: bytePositions .dataOut 0)) ∧
    (0x80 ≤ addr.toNat → exec (.writeReg addr v) s = .next (record (.addressOutOfRange addr) s))

/-- READ_BURST (R133): the burst frame, `B[k]` made of samples `8k` to `8k + 7`, `SDO_DIR` an output at the end;
V1, V2 and V5; each direction event belongs to the position R133 names. -/
def Obligations.ReadBurstRule : Prop :=
  (∀ (addr : Byte) (s : State), s.busy = false →
    (addr.toNat < 0x80 → encode (.readBurst addr) = 0b111#3 ++ addr.setWidth 7 ++ 0b00000000#8 ∧
      (∃ t, exec (.readBurst addr) s = .next t ∧
        (∀ k n : Fin 8, t.b[k.val].getLsbD (7 - n.val) = s.answer (8 * k.val + n.val)) ∧
        t = { s with
              txsr := addr, b := t.b, bWritten := Vector.replicate 8 true, sclk := true
              sdo := addr.getLsbD 0, sdoDir := .output, txnDone := true, seq := Seq.atRest
              op := 0b111#3, a := addr.setWidth 7, sdi := s.sdi.drop 64, sampled := s.sampled + 64
              viol := s.violAfterEntry (encode (.readBurst addr))
              trace := s.trace ++ burstFrame (addr.setWidth 7) t.b
              returned := s.returned ++ [.burst t.b], v := t.v, rxsr := t.rxsr }) ∧
      SequencerVisits (acceptCommand (encode (.readBurst addr)) s)
        (⟨.start, 0, 7⟩ :: bytePositions .addr 0 ++ ⟨.gap, 0, 7⟩
          :: [0, 1, 2, 3, 4, 5, 6, 7].flatMap (bytePositions .dataIn))) ∧
    (0x80 ≤ addr.toNat → exec (.readBurst addr) s = .next (record (.addressOutOfRange addr) s))) ∧
  ∀ u : State, u.busy = true → u.op = 0b111#3 → u.seq.allowed u.op = true →
    ∃ es, (tick u).trace = u.trace ++ es ∧
      es.filter Event.isMode =
        if u.seq = ⟨.start, 0, 7⟩ then [.mode .sdo .output]
        else if u.seq = ⟨.gap, 0, 7⟩ then [.mode .sdo .input]
        else if u.seq = ⟨.dataIn, 7, 0⟩ then [.mode .sdo .output]
        else []

/-! ### The sequencer against the whole command -/

/-- Performed position by position, a command leaves exactly the state the whole command leaves (R12, R31). That the model
has both kinds of step is its own choice (log 14); this relates them. -/
def Obligations.SequencerRefinesCommand : Prop :=
  ∀ (i : Instr) (s : State), i.wellFormed = true → s.busy = false →
    exec i s = .next (ticks (positionsOf i).length (acceptCommand (encode i) s))

/-- A completed command leaves its word in the latches (R29); that an unused latch takes the word's zero field (log 10) and
that the byte in transit is zero at rest (log 8) are the model's choices. -/
def Obligations.LatchesHoldCommandWord : Prop :=
  ∀ (i : Instr) (s : State), i.wellFormed = true → s.busy = false →
    ∃ t, exec i s = .next t ∧ packWord t.op t.a t.v = encode i ∧ t.rxsr = 0x00#8

/-! ### Violations -/

/-- V3 (R166, R169): presented while `BUSY = 1`, every command stops the machine with V3 recorded and nothing else changed,
whatever its operands. That the machine stops there is the model's choice (log 7), and for an address of `0x80` or more, which
has no command word (R90), so is the word recorded, with the address cut to seven bits (log 11). -/
def Obligations.BusyBlockStopsReentry : Prop :=
  ∀ (i : Instr) (s : State), s.busy = true →
    ∃ t, exec i s = .fault (.reentry t) ∧ t = { s with viol := t.viol } ∧
      ∀ x, x ∈ t.viol ↔ x ∈ s.viol ∨ x = .reentry (encode i)

/-- V5 (R90, R166): an address operand of `0x80` or more is neither masked nor sent; the mark is the whole effect, and V1
and V2 are not checked after it (R169). -/
def Obligations.WideAddressMarksOnly : Prop :=
  ∀ (addr v : Byte) (s : State), s.busy = false → 0x80 ≤ addr.toNat →
    ∀ i ∈ [Instr.readReg addr, Instr.writeReg addr v, Instr.readBurst addr],
      ∃ t, exec i s = .next t ∧ t = { s with viol := t.viol } ∧
        ∀ x, x ∈ t.viol ↔ x ∈ s.viol ∨ x = .addressOutOfRange addr

/-- V1 and V2 (R166, R169): a wire command accepted with `NCS = 1` marks V1 and nothing else; else, under `CS_STRICT`, with
`G_TXN_DONE = 1` it marks V2; else it marks nothing; in each case it runs. The two chip-select commands mark nothing. -/
def Obligations.EntryCheckMarks : Prop :=
  ∀ (i : Instr) (s : State), i.wellFormed = true → s.busy = false →
    ∃ t, exec i s = .next t ∧
      if i = .csAssert ∨ i = .csRelease then t.viol = s.viol
      else if s.ncs = true then ∀ x, x ∈ t.viol ↔ x ∈ s.viol ∨ x = .ncsHighOnEntry (encode i)
      else if s.txnDone = true then ∀ x, x ∈ t.viol ↔ x ∈ s.viol ∨ x = .transactionNotDelimited (encode i)
      else t.viol = s.viol

/-- V3 (R166, R176): a command word of an agent other than the host stops the machine at once, idle or busy, with V3
recorded. That the word of another agent is seen at a step boundary is the model's choice (log 12). -/
def Obligations.OtherAgentStopsReentry : Prop :=
  ∀ (cw : CmdWord) (rest : List HostAction) (s : State), s.inbox = .intruder cw :: rest →
    ∃ t, step s = .fault (.reentry t) ∧ t = { s with inbox := rest, viol := t.viol } ∧
      ∀ x, x ∈ t.viol ↔ x ∈ s.viol ∨ x = .reentry cw

/-- V4 (R90, R166, R169): a word that is no command causes no pin event; the mark is the whole effect, with `NCS` high
too. -/
def Obligations.ReservedWordMarksOnly : Prop :=
  ∀ (cw : CmdWord) (e : DecodeError) (s : State), s.busy = false → decode cw = .error e →
    ∃ t, present (.word cw) s = .next t ∧ t = { s with viol := t.viol } ∧
      ∀ x, x ∈ t.viol ↔ x ∈ s.viol ∨ x = .reservedCommand cw

/-- V6 (R166, R181): a host read returns what the register holds, and marks V6 exactly where no command has written it;
nothing else changes. -/
def Obligations.HostReadReturnsRegister : Prop :=
  ∀ (r : HostReg) (s : State),
    ∃ t, present (.read r) s = .next t ∧
      t = { s with viol := t.viol, returned := s.returned ++ [.byte (s.hostReg r)] } ∧
      (s.hostRegWritten r = true → t.viol = s.viol) ∧
      (s.hostRegWritten r = false → ∀ x, x ∈ t.viol ↔ x ∈ s.viol ∨ x = .unwrittenRead r)

/-- R20, R31, R32: a read of `BUSY` hands the host the flag, 1 exactly while `SEQ.phase` is not `IDLE`, and changes nothing
else; at rest a step reads 0. That the host has this read, and when it is answered, is the model's choice (log 24). -/
def Obligations.BusyReadReturnsFlag : Prop :=
  ∀ s : State,
    present .readBusy s = .next { s with returned := s.returned ++ [.flag (decide (s.seq.phase ≠ .idle))] } ∧
    ∀ rest, s.busy = false → s.inbox = .readBusy :: rest →
      step s = .next { s with inbox := rest, returned := s.returned ++ [.flag false] }

/-- `G_VIOL` is never cleared (R171): no step, whole command or position, takes a mark out, and it stays a set. -/
def Obligations.ViolationsSticky : Prop :=
  ∀ s t : State, step s = .next t →
    (∀ x ∈ s.viol, x ∈ t.viol) ∧ (s.viol.Nodup → t.viol.Nodup)

/-! ### Steps -/

/-- At rest, with a command's word or the command itself presented next, a step is `exec` of that command; the word put
there by `withFetchWord` too. -/
def Obligations.StepRunsDecodedCommand : Prop :=
  ∀ (cw : CmdWord) (rest : List HostAction) (i : Instr) (s : State), s.busy = false → decode cw = .ok i →
    (s.inbox = .word cw :: rest → step s = exec i { s with inbox := rest }) ∧
    (s.inbox = .call i :: rest → step s = exec i { s with inbox := rest }) ∧
    step (s.withFetchWord 18 cw.toNat) = exec i s

/-- While a command is in progress a step is its next position. That a busy state steps position by position is the model's
choice (log 14): R12 makes a command one step and R31 gives the positions. That what the host does next waits is R182's. -/
def Obligations.BusyStepAdvancesSequencer : Prop :=
  ∀ s : State, s.busy = true → (∀ cw rest, s.inbox ≠ .intruder cw :: rest) →
    step s = .next (tick s) ∧ (tick s).inbox = s.inbox

/-- Between commands the block holds its pins and does nothing (R178). -/
def Obligations.IdleStepChangesNothing : Prop :=
  ∀ s : State, s.busy = false → s.inbox = [] → step s = .next s

/-- A list of host actions is performed in order, one step each (R62, R182): what presenting them one after another
gives is what as many steps give. -/
def Obligations.HostListRunsInOrder : Prop :=
  ∀ (xs : List HostAction) (s t : State), s.busy = false → s.inbox = [] →
    presentAll xs s = .next t →
      Host.Core.run Sys2Proof.core xs.length { s with inbox := xs } = .next t

/-! ### Invariants -/

/-- After reset the pins are at rest (R36). -/
def Obligations.ResetPinsAtRest : Prop := PinsAtRest State.reset

/-- Every step keeps the pins at rest between positions (R23, R25, R31, R38). -/
def Obligations.StepKeepsPinsAtRest : Prop :=
  ∀ s t : State, PinsAtRest s → step s = .next t → PinsAtRest t

/-- Every step keeps SDO at the bit sent last, between commands bit 0 of the last byte sent (R24, R38); at reset this rests
on the zero the model gives the unwritten `TXSR` (log 1). -/
def Obligations.StepKeepsSdoAtLastBit : Prop :=
  SdoHoldsLastBit State.reset ∧ ∀ s t : State, SdoHoldsLastBit s → step s = .next t → SdoHoldsLastBit t

/-- Every step keeps the latches equal to what the trace since reset says of the pins (R7, R10). -/
def Obligations.StepKeepsTraceFaithful : Prop :=
  (TraceExplainsPins State.reset) ∧
    ∀ s t : State, TraceExplainsPins s → step s = .next t → TraceExplainsPins t

/-- G3 (R195): no step writes SDO while the clock is high. -/
def Obligations.StepKeepsDataQuiet : Prop :=
  DataQuiet State.reset ∧ ∀ s t : State, DataQuiet s → step s = .next t → DataQuiet t

/-- The trace and the returned values only grow, and the Bus Binding never changes (R10, R21). -/
def Obligations.StepExtendsHistory : Prop :=
  ∀ s t : State, step s = .next t →
    t.pins = s.pins ∧ (∃ es, t.trace = s.trace ++ es) ∧ (∃ rs, t.returned = s.returned ++ rs)

/-- A register whose written mark is still false was not touched, and a mark once set stays (R36). -/
def Obligations.UnwrittenRegistersUntouched : Prop :=
  ∀ s t : State, step s = .next t →
    (s.rxWritten = true → t.rxWritten = true) ∧ (t.rxWritten = false → t.rx = s.rx) ∧
    ∀ k : Fin 8, (s.bWritten[k.val] = true → t.bWritten[k.val] = true) ∧
      (t.bWritten[k.val] = false → t.b[k.val] = s.b[k.val])

/-- Only CS_ASSERT and CS_RELEASE change `NCS` (R22); only READ_BURST has a direction event (R25); only SHIFT_IN and the
reads sample SDI (R153). -/
def Obligations.OnlyTheseCommandsTouch : Prop :=
  ∀ (i : Instr) (s t : State), exec i s = .next t →
    (t.ncs ≠ s.ncs → i = .csAssert ∨ i = .csRelease) ∧
    ∃ es, t.trace = s.trace ++ es ∧
      ((∃ p d, Event.mode p d ∈ es) → ∃ addr, i = .readBurst addr) ∧
      ((∃ x, Event.sample x ∈ es) → i = .shiftIn ∨ (∃ addr, i = .readReg addr) ∨ ∃ addr, i = .readBurst addr)

/-! ### Reset -/

/-- The values R36 gives. "Unwritten" is a mark that is false, for the registers a host can read: `RX` and every `B[k]`; of
`TXSR`, `OP`, `A` and `V`, which R36 leaves unwritten too and no host can read, nothing is said (log 1). -/
def Obligations.ResetValues : Prop :=
  State.reset.pins.distinct = true ∧ State.reset.ncs = true ∧ State.reset.sclk = true ∧ State.reset.sdo = false ∧
  State.reset.sdoDir = .output ∧ State.reset.ncsDir = .output ∧ State.reset.sclkDir = .output ∧
  State.reset.sdiDir = .input ∧ State.reset.seq = ⟨.idle, 0, 7⟩ ∧ State.reset.busy = false ∧
  State.reset.txnDone = false ∧ State.reset.viol = [] ∧ State.reset.rxWritten = false ∧
  ∀ k : Fin 8, State.reset.bWritten[k.val] = false

/-- The events of construction leave the pins as R36 says, whatever their latches and directions held before (R185). -/
def Obligations.ConstructionReachesReset : Prop :=
  ∀ s : State,
    drivePinsAtConstruction s =
      { s with
        ncs := State.reset.ncs, sclk := State.reset.sclk, sdo := State.reset.sdo
        ncsDir := State.reset.ncsDir, sclkDir := State.reset.sclkDir
        sdoDir := State.reset.sdoDir, sdiDir := State.reset.sdiDir
        trace := s.trace ++
          [.mode .ncs .output, .write .ncs true, .mode .sclk .output, .write .sclk true,
           .mode .sdo .output, .write .sdo false, .mode .sdi .input] }

/-! ### The wire -/

/-- The exact event counts of each command (R203). -/
def Obligations.EventCountTable : Prop :=
  ∀ (addr v : Byte) (s : State), s.busy = false → addr.toNat < 0x80 →
    ∀ p ∈ [(Instr.csAssert, EventCounts.mk 0 0 0 0 0 1 0), (Instr.csRelease, EventCounts.mk 0 0 0 0 0 1 0),
           (Instr.shiftOut v, EventCounts.mk 8 8 8 0 0 0 16), (Instr.shiftIn, EventCounts.mk 8 8 0 8 0 0 1),
           (Instr.readReg addr, EventCounts.mk 16 16 8 8 0 0 19),
           (Instr.writeReg addr v, EventCounts.mk 16 16 16 0 0 0 34),
           (Instr.readBurst addr, EventCounts.mk 72 72 8 64 3 0 26)],
      ∃ t es, exec p.1 s = .next t ∧ t.trace = s.trace ++ es ∧ countEvents es = p.2

/-- The minimum duration of each command under every timing (R202). -/
def Obligations.MinimumDurations : Prop :=
  ∀ (addr v : Byte) (s : State) (τ : Timing), s.busy = false → addr.toNat < 0x80 →
    ∀ p ∈ [(Instr.csAssert, 0), (Instr.csRelease, 0),
           (Instr.shiftOut v, 8 * (τ.tOutLow + τ.tOutHigh)), (Instr.shiftIn, τ.tInSettle),
           (Instr.readReg addr, τ.tStart + 8 * (τ.tOutLow + τ.tOutHigh) + τ.tPhase + τ.tInSettle),
           (Instr.writeReg addr v, τ.tStart + 16 * (τ.tOutLow + τ.tOutHigh) + τ.tPhase),
           (Instr.readBurst addr, τ.tStart + 8 * (τ.tOutLow + τ.tOutHigh) + τ.tPhase + 8 * τ.tInSettle)],
      ∃ t es, exec p.1 s = .next t ∧ t.trace = s.trace ++ es ∧ minDuration τ es = p.2

/-- G1 (R193): whatever durations the events have, at least `T_START` passes between the acceptance of a register command
and its first falling edge; SHIFT_OUT has no event before its first falling edge. -/
def Obligations.StartGuarantee : Prop :=
  ∀ (addr v : Byte) (s : State) (τ : Timing), s.busy = false → addr.toNat < 0x80 →
    (∀ i ∈ [Instr.readReg addr, Instr.writeReg addr v, Instr.readBurst addr],
      ∃ t es, exec i s = .next t ∧ t.trace = s.trace ++ es ∧
        ∀ ds, Admissible τ (untilFall es) ds → τ.tStart ≤ ds.sum) ∧
    ∃ t es, exec (.shiftOut v) s = .next t ∧ t.trace = s.trace ++ es ∧ untilFall es = []

/-- G2 (R194): whatever durations the events have, the gap between the last rising edge of the address byte, the eighth of
the command, and the first falling edge of the data phase is at least what R194 says. -/
def Obligations.PhaseGapGuarantee : Prop :=
  ∀ (addr v : Byte) (s : State) (τ : Timing), s.busy = false → addr.toNat < 0x80 →
    ∀ p ∈ [(Instr.readReg addr, τ.tOutHigh + τ.tPhase + τ.tInSettle),
           (Instr.writeReg addr v, τ.tOutHigh + τ.tPhase),
           (Instr.readBurst addr, τ.tOutHigh + τ.tPhase + τ.tInSettle)],
      ∃ t es, exec p.1 s = .next t ∧ t.trace = s.trace ++ es ∧
        ∀ ds, Admissible τ (untilFall (afterRise 8 es)) ds → p.2 ≤ ds.sum ∧ τ.tPhase ≤ ds.sum

/-- G4 (R196): every in byte begins with one settle delay, `T_IN_SETTLE`, and holds no other delay. SHIFT_IN begins with it.
Before the first falling edge of the data phase READ_REG has the rest of the address byte's last cell, `T_PHASE` and the
settle delay, READ_BURST the direction event besides. Between the falling edges inside an in byte there is the sample alone;
between consecutive in bytes of a burst the sample and one settle delay and nothing else; after the last cell of the burst
the sample and the direction event. From the last rising edge of the address byte to the command's end there are 3 delays in
READ_REG and 10 in READ_BURST, all of them in the gaps just named: none stands in the low phase of a cell. -/
def Obligations.InByteTiming : Prop :=
  ∀ (addr : Byte) (s : State), s.busy = false → addr.toNat < 0x80 →
    (∃ t es, exec .shiftIn s = .next t ∧ t.trace = s.trace ++ .delay .tInSettle :: es ∧ untilFall es = [] ∧
      (countEvents es).delays = 0) ∧
    (∃ t es, exec (.readReg addr) s = .next t ∧ t.trace = s.trace ++ es ∧
      untilFall (afterRise 8 es) = [.delay .tOutHigh, .delay .tPhase, .delay .tInSettle] ∧
      (countEvents (afterRise 8 es)).delays = 3) ∧
    (∃ t es, exec (.readBurst addr) s = .next t ∧ t.trace = s.trace ++ es ∧
      untilFall (afterRise 8 es) = [.delay .tOutHigh, .mode .sdo .input, .delay .tPhase, .delay .tInSettle] ∧
      (countEvents (afterRise 8 es)).delays = 10 ∧
      ∀ n : Fin 64, ∃ x, untilFall (afterRise (9 + n.val) es) =
        if n.val = 63 then [.sample x, .mode .sdo .output]
        else if n.val % 8 = 7 then [.sample x, .delay .tInSettle]
        else [.sample x])

/-- R114: SHIFT_OUT and SHIFT_IN leave the clock high; their clock edges alternate, eight falling and eight rising,
beginning with a falling edge (with the clock already low, with a write of 0 that changes nothing); SHIFT_OUT writes SDO eight
times and never samples, SHIFT_IN samples eight times and never writes SDO. -/
def Obligations.ByteClockEdges : Prop :=
  ∀ (b : Byte) (s : State), s.busy = false →
    ∀ p ∈ [(Instr.shiftOut b, 8, 0), (Instr.shiftIn, 0, 8)],
      ∃ t es, exec p.1 s = .next t ∧ t.trace = s.trace ++ es ∧ t.sclk = true ∧
        (false :: clockEdges s.wire es).drop (if s.sclk = true then 1 else 0)
          = (List.replicate 8 [false, true]).flatten ∧
        (countEvents es).sclkLow = 8 ∧ (countEvents es).sclkHigh = 8 ∧ (countEvents (untilFall es)).sclkHigh = 0 ∧
        (countEvents es).sdoWrites = p.2.1 ∧ (countEvents es).samples = p.2.2

/-- R115: the kinds and the order of a command's events depend on its code alone, not on an operand, a sampled bit or
the state. -/
def Obligations.EventShapeDependsOnCodeOnly : Prop :=
  ∀ (i j : Instr) (s₁ s₂ : State), i.wellFormed = true → j.wellFormed = true →
    opField (encode i) = opField (encode j) → s₁.busy = false → s₂.busy = false →
      ∃ t₁ t₂ es₁ es₂, exec i s₁ = .next t₁ ∧ exec j s₂ = .next t₂ ∧
        t₁.trace = s₁.trace ++ es₁ ∧ t₂.trace = s₂.trace ++ es₂ ∧ es₁.map Event.shape = es₂.map Event.shape

/-- R115, R167: the sampled values change only what is returned: with other answers of the target the command leaves the
same state but for the result registers, the returned value, the levels in the trace's samples and the answers left. -/
def Obligations.SampledBitsOnlyReturned : Prop :=
  ∀ (i : Instr) (s : State) (answers : List Level), i.wellFormed = true → s.busy = false →
    ∃ t u es fs, exec i s = .next t ∧ exec i { s with sdi := answers } = .next u ∧
      u = { t with rx := u.rx, b := u.b, returned := u.returned, trace := u.trace, sdi := u.sdi } ∧
      t.trace = s.trace ++ es ∧ u.trace = s.trace ++ fs ∧
      List.Forall₂ (fun e f => e = f ∨ ((∃ x, e = .sample x) ∧ ∃ y, f = .sample y)) es fs

/-- What a target takes from the data-out pin at the rising edges (R80 to R82, R84 to R86, R91, R111, R135): the byte of
SHIFT_OUT, bit 7 first; the address byte with the direction bit first; in a write the byte after it; in a read `A[0]` held
through the data byte; in a burst nothing driven through the 64 in cells (R7, R25; that an input pin reads as undriven is
log 21). -/
def Obligations.BitsOnTheWire : Prop :=
  ∀ (addr v : Byte) (s : State), s.busy = false → s.sclk = true → s.sdoDir = .output → addr.toNat < 0x80 →
    ∀ p ∈ [(Instr.shiftOut v, [7, 6, 5, 4, 3, 2, 1, 0].map (fun i => some (v.getLsbD i))),
           (Instr.readReg addr, some false :: [6, 5, 4, 3, 2, 1, 0].map (fun i => some (addr.getLsbD i))
              ++ List.replicate 8 (some (addr.getLsbD 0))),
           (Instr.writeReg addr v, some true :: [6, 5, 4, 3, 2, 1, 0].map (fun i => some (addr.getLsbD i))
              ++ [7, 6, 5, 4, 3, 2, 1, 0].map (fun i => some (v.getLsbD i))),
           (Instr.readBurst addr, some false :: [6, 5, 4, 3, 2, 1, 0].map (fun i => some (addr.getLsbD i))
              ++ List.replicate 64 none)],
      ∃ t es, exec p.1 s = .next t ∧ t.trace = s.trace ++ es ∧ risingBits s.wire es = p.2

/-- The target decides every bit returned (R26, R167): any byte can come back from SHIFT_IN and READ_REG, and any eight
from READ_BURST, whatever was sent; the answers are used up exactly. -/
def Obligations.TargetDecidesWhatIsRead : Prop :=
  ∀ (addr d : Byte) (ds : Vector Byte 8) (rest : List Level) (s : State), s.busy = false → addr.toNat < 0x80 →
    (∃ t, exec .shiftIn { s with sdi := [7, 6, 5, 4, 3, 2, 1, 0].map d.getLsbD ++ rest } = .next t ∧
      t.rx = d ∧ t.sdi = rest) ∧
    (∃ t, exec (.readReg addr) { s with sdi := [7, 6, 5, 4, 3, 2, 1, 0].map d.getLsbD ++ rest } = .next t ∧
      t.rx = d ∧ t.sdi = rest) ∧
    (∃ t, exec (.readBurst addr)
        { s with sdi := ds.toList.flatMap (fun x => [7, 6, 5, 4, 3, 2, 1, 0].map x.getLsbD) ++ rest } = .next t ∧
      t.b = ds ∧ t.sdi = rest)

/-! ### Host sequences -/

/-- R154: a guarded form is its three commands (R94), the shadow write two such triples, and from `NCS = 1`, `G_TXN_DONE = 0`
any sequence of guarded forms ends so again and raises no violation. -/
def Obligations.GuardedFormsRaiseNoViolation : Prop :=
  (∀ addr v : Byte,
    (Pseudo.xread addr).expand = [.call .csAssert, .call (.readReg addr), .call .csRelease] ∧
    (Pseudo.xwrite addr v).expand = [.call .csAssert, .call (.writeReg addr v), .call .csRelease] ∧
    (Pseudo.xburst addr).expand = [.call .csAssert, .call (.readBurst addr), .call .csRelease] ∧
    ∀ shadow : Byte, (Pseudo.xshadow addr shadow v).expand =
      [.call .csAssert, .call (.writeReg addr v), .call .csRelease,
       .call .csAssert, .call (.writeReg shadow (~~~v)), .call .csRelease]) ∧
  ∀ (ps : List Pseudo) (s : State),
    (∀ p ∈ ps, p.isGuarded = true ∧ p.wellFormed = true) →
    s.busy = false → s.ncs = true → s.txnDone = false →
      ∃ t, presentAll (ps.flatMap Pseudo.expand) s = .next t ∧
        t.busy = false ∧ t.ncs = true ∧ t.txnDone = false ∧ t.viol = s.viol

/-- R187: the bus reset drives chip-select high, low, high, low; the clock and the data-out pin do not move; it ends with
`NCS = 0` and raises no violation. -/
def Obligations.BusResetTogglesChipSelect : Prop :=
  ∀ s : State, s.busy = false →
    ∃ t, presentAll Pseudo.busReset.expand s = .next t ∧
      t.trace = s.trace ++ [.write .ncs true, .write .ncs false, .write .ncs true, .write .ncs false] ∧
      t.ncs = false ∧ t.sclk = s.sclk ∧ t.sdo = s.sdo ∧ t.sdoDir = s.sdoDir ∧
      t.busy = false ∧ t.txnDone = false ∧ t.viol = s.viol

/-- R188, R200: the link poll ends within its cap whatever the target answers. It makes `vs.length` guarded reads of the
motion status register, whose answers are `vs`: at most the cap, each but the last with the tested bit 0, and it stops
because the last one has the tested bit 1 or because the cap is reached (with a cap above 0 it reads at least once). `RX`
holds the last answer, and the bus is left between transactions. -/
def Obligations.LinkPollBounded : Prop :=
  ∀ (mask : Byte) (cap : Nat) (s : State), s.busy = false → s.ncs = true → s.txnDone = false →
    ∃ (t : State) (vs : List Byte), linkPoll mask cap s = .next t ∧
      t.trace = s.trace ++ vs.flatMap (fun v =>
        .write .ncs false :: readFrame (Config.regMotion.setWidth 7) v ++ [.write .ncs true]) ∧
      t.returned = s.returned ++ vs.flatMap (fun v => [.nothing, .byte v, .nothing]) ∧
      vs.length ≤ cap ∧ (0 < cap → 0 < vs.length) ∧ (∀ v ∈ vs.dropLast, v &&& mask = 0#8) ∧
      (t.rx &&& mask ≠ 0#8 ∨ vs.length = cap) ∧ t.rx = vs.getLastD s.rx ∧
      t.busy = false ∧ t.ncs = true ∧ t.txnDone = false ∧ t.viol = s.viol

/-- R188: from any idle state the start-up sequence reaches its end, never stopping early, whatever the target answers; it
ends with `NCS = 1` and raises no violation. The values the source does not give are the parameters (log 20). -/
def Obligations.StartupReachesReady : Prop :=
  ∀ (p : StartupParams) (s : State), p.wellFormed = true → s.busy = false →
    ∃ t, startup p s = .next t ∧ t.busy = false ∧ t.ncs = true ∧ t.txnDone = false ∧ t.viol = s.viol
end

