-- ==== Sys2Proof/Laws/Decode.lean ====
section
/-! SUPPORT. The command word's fields (spec/30_encoding.md R87): packing and unpacking are inverse, and the address
operand fits its field exactly when it is in range. -/

namespace Sys2Proof

theorem getLsbD_packWord (op : BitVec 3) (addr : Addr) (data : Byte) (i : Nat) :
    (packWord op addr data).getLsbD i =
      if i < Config.dataW then data.getLsbD i
      else if i < Config.addrW + Config.dataW then addr.getLsbD (i - Config.dataW)
      else op.getLsbD (i - (Config.addrW + Config.dataW)) := by
  unfold packWord
  rw [BitVec.getLsbD_append, BitVec.getLsbD_append]
  by_cases h1 : i < Config.dataW
  · rw [if_pos h1, if_pos h1]
  · rw [if_neg h1, if_neg h1]
    by_cases h2 : i < Config.addrW + Config.dataW
    · rw [if_pos h2, if_pos (by omega)]
    · rw [if_neg h2, if_neg (by omega), Nat.sub_sub, Nat.add_comm Config.dataW]

@[simp] theorem opField_packWord (op : BitVec 3) (addr : Addr) (data : Byte) : opField (packWord op addr data) = op := by
  apply BitVec.eq_of_getLsbD_eq
  intro i hi
  rw [opField, BitVec.getLsbD_extractLsb', getLsbD_packWord, if_neg (by omega), if_neg (by omega), decide_eq_true hi]
  simp

@[simp] theorem addrField_packWord (op : BitVec 3) (addr : Addr) (data : Byte) :
    addrField (packWord op addr data) = addr := by
  apply BitVec.eq_of_getLsbD_eq
  intro i hi
  rw [addrField, BitVec.getLsbD_extractLsb', getLsbD_packWord, if_neg (by omega), if_pos (by omega), decide_eq_true hi]
  simp

@[simp] theorem dataField_packWord (op : BitVec 3) (addr : Addr) (data : Byte) :
    dataField (packWord op addr data) = data := by
  apply BitVec.eq_of_getLsbD_eq
  intro i hi
  rw [dataField, BitVec.getLsbD_extractLsb', getLsbD_packWord, if_pos (by omega), decide_eq_true hi]
  simp

@[simp] theorem packWord_fields (w : CmdWord) : packWord (opField w) (addrField w) (dataField w) = w := by
  apply BitVec.eq_of_getLsbD_eq
  intro i hi
  rw [getLsbD_packWord]
  unfold Config.cmdW at hi
  split
  · rw [dataField, BitVec.getLsbD_extractLsb', decide_eq_true (by omega)]
    simp
  · split
    · rw [addrField, BitVec.getLsbD_extractLsb', decide_eq_true (by omega), Bool.true_and, Nat.add_sub_cancel' (by omega)]
    · rw [opField, BitVec.getLsbD_extractLsb', decide_eq_true (by omega), Bool.true_and, Nat.add_sub_cancel' (by omega)]

theorem packWord_inj (op op' : BitVec 3) (addr addr' : Addr) (data data' : Byte) :
    packWord op addr data = packWord op' addr' data' ↔ op = op' ∧ addr = addr' ∧ data = data' := by
  refine ⟨fun h => ⟨?_, ?_, ?_⟩, by rintro ⟨rfl, rfl, rfl⟩; rfl⟩
  · simpa using congrArg opField h
  · simpa using congrArg addrField h
  · simpa using congrArg dataField h

theorem packWord_and (op op' : BitVec 3) (addr addr' : Addr) (data data' : Byte) :
    packWord op addr data &&& packWord op' addr' data' = packWord (op &&& op') (addr &&& addr') (data &&& data') := by
  apply BitVec.eq_of_getLsbD_eq
  intro i hi
  simp only [BitVec.getLsbD_and, getLsbD_packWord]
  split
  · rfl
  · split <;> rfl

theorem addrInRange_iff (addr : Byte) : addrInRange addr = true ↔ addr.toNat < 0x80 := by
  simp [addrInRange, Config.addrW]

theorem narrow_wide (addr : Byte) (h : addr.toNat < 0x80) :
    ((addr.setWidth Config.addrW).setWidth Config.dataW : Byte) = addr := by
  apply BitVec.eq_of_toNat_eq
  simp only [BitVec.toNat_setWidth, Config.addrW, Config.dataW]
  omega

theorem wide_narrow (addr : Addr) : ((addr.setWidth Config.dataW).setWidth Config.addrW : Addr) = addr := by
  have := addr.isLt
  apply BitVec.eq_of_toNat_eq
  simp only [BitVec.toNat_setWidth, Config.addrW, Config.dataW] at this ⊢
  omega

theorem wide_inRange (addr : Addr) : addrInRange (addr.setWidth Config.dataW) = true := by
  have := addr.isLt
  simp only [addrInRange_iff, BitVec.toNat_setWidth, Config.addrW, Config.dataW] at this ⊢
  omega

end Sys2Proof
end

