-- ==== Sys2Proof/Laws/State.lean ====
section
/-! SUPPORT. One lemma per field per update of State: what each named operation does to each field. -/

namespace Sys2Proof.Machine

@[simp] theorem emit_pins (e : Event) (s : State) : (emit e s).pins = s.pins := rfl
@[simp] theorem emit_ncs (e : Event) (s : State) : (emit e s).ncs = s.ncs := rfl
@[simp] theorem emit_sclk (e : Event) (s : State) : (emit e s).sclk = s.sclk := rfl
@[simp] theorem emit_sdo (e : Event) (s : State) : (emit e s).sdo = s.sdo := rfl
@[simp] theorem emit_sdoDir (e : Event) (s : State) : (emit e s).sdoDir = s.sdoDir := rfl
@[simp] theorem emit_ncsDir (e : Event) (s : State) : (emit e s).ncsDir = s.ncsDir := rfl
@[simp] theorem emit_sclkDir (e : Event) (s : State) : (emit e s).sclkDir = s.sclkDir := rfl
@[simp] theorem emit_sdiDir (e : Event) (s : State) : (emit e s).sdiDir = s.sdiDir := rfl
@[simp] theorem emit_txsr (e : Event) (s : State) : (emit e s).txsr = s.txsr := rfl
@[simp] theorem emit_rx (e : Event) (s : State) : (emit e s).rx = s.rx := rfl
@[simp] theorem emit_rxWritten (e : Event) (s : State) : (emit e s).rxWritten = s.rxWritten := rfl
@[simp] theorem emit_op (e : Event) (s : State) : (emit e s).op = s.op := rfl
@[simp] theorem emit_a (e : Event) (s : State) : (emit e s).a = s.a := rfl
@[simp] theorem emit_v (e : Event) (s : State) : (emit e s).v = s.v := rfl
@[simp] theorem emit_b (e : Event) (s : State) : (emit e s).b = s.b := rfl
@[simp] theorem emit_bWritten (e : Event) (s : State) : (emit e s).bWritten = s.bWritten := rfl
@[simp] theorem emit_seq (e : Event) (s : State) : (emit e s).seq = s.seq := rfl
@[simp] theorem emit_rxsr (e : Event) (s : State) : (emit e s).rxsr = s.rxsr := rfl
@[simp] theorem emit_txnDone (e : Event) (s : State) : (emit e s).txnDone = s.txnDone := rfl
@[simp] theorem emit_viol (e : Event) (s : State) : (emit e s).viol = s.viol := rfl
@[simp] theorem emit_trace (e : Event) (s : State) : (emit e s).trace = s.trace ++ [e] := rfl
@[simp] theorem emit_returned (e : Event) (s : State) : (emit e s).returned = s.returned := rfl
@[simp] theorem emit_sdi (e : Event) (s : State) : (emit e s).sdi = s.sdi := rfl
@[simp] theorem emit_sampled (e : Event) (s : State) : (emit e s).sampled = s.sampled := rfl
@[simp] theorem emit_inbox (e : Event) (s : State) : (emit e s).inbox = s.inbox := rfl

@[simp] theorem delay_pins (t : DelayParam) (s : State) : (delay t s).pins = s.pins := rfl
@[simp] theorem delay_ncs (t : DelayParam) (s : State) : (delay t s).ncs = s.ncs := rfl
@[simp] theorem delay_sclk (t : DelayParam) (s : State) : (delay t s).sclk = s.sclk := rfl
@[simp] theorem delay_sdo (t : DelayParam) (s : State) : (delay t s).sdo = s.sdo := rfl
@[simp] theorem delay_sdoDir (t : DelayParam) (s : State) : (delay t s).sdoDir = s.sdoDir := rfl
@[simp] theorem delay_ncsDir (t : DelayParam) (s : State) : (delay t s).ncsDir = s.ncsDir := rfl
@[simp] theorem delay_sclkDir (t : DelayParam) (s : State) : (delay t s).sclkDir = s.sclkDir := rfl
@[simp] theorem delay_sdiDir (t : DelayParam) (s : State) : (delay t s).sdiDir = s.sdiDir := rfl
@[simp] theorem delay_txsr (t : DelayParam) (s : State) : (delay t s).txsr = s.txsr := rfl
@[simp] theorem delay_rx (t : DelayParam) (s : State) : (delay t s).rx = s.rx := rfl
@[simp] theorem delay_rxWritten (t : DelayParam) (s : State) : (delay t s).rxWritten = s.rxWritten := rfl
@[simp] theorem delay_op (t : DelayParam) (s : State) : (delay t s).op = s.op := rfl
@[simp] theorem delay_a (t : DelayParam) (s : State) : (delay t s).a = s.a := rfl
@[simp] theorem delay_v (t : DelayParam) (s : State) : (delay t s).v = s.v := rfl
@[simp] theorem delay_b (t : DelayParam) (s : State) : (delay t s).b = s.b := rfl
@[simp] theorem delay_bWritten (t : DelayParam) (s : State) : (delay t s).bWritten = s.bWritten := rfl
@[simp] theorem delay_seq (t : DelayParam) (s : State) : (delay t s).seq = s.seq := rfl
@[simp] theorem delay_rxsr (t : DelayParam) (s : State) : (delay t s).rxsr = s.rxsr := rfl
@[simp] theorem delay_txnDone (t : DelayParam) (s : State) : (delay t s).txnDone = s.txnDone := rfl
@[simp] theorem delay_viol (t : DelayParam) (s : State) : (delay t s).viol = s.viol := rfl
@[simp] theorem delay_trace (t : DelayParam) (s : State) : (delay t s).trace = s.trace ++ [.delay t] := rfl
@[simp] theorem delay_returned (t : DelayParam) (s : State) : (delay t s).returned = s.returned := rfl
@[simp] theorem delay_sdi (t : DelayParam) (s : State) : (delay t s).sdi = s.sdi := rfl
@[simp] theorem delay_sampled (t : DelayParam) (s : State) : (delay t s).sampled = s.sampled := rfl
@[simp] theorem delay_inbox (t : DelayParam) (s : State) : (delay t s).inbox = s.inbox := rfl

@[simp] theorem pinWrite_pins (p : OutPin) (l : Level) (s : State) : (pinWrite p l s).pins = s.pins := by cases p <;> rfl
@[simp] theorem pinWrite_ncs (p : OutPin) (l : Level) (s : State) : (pinWrite p l s).ncs = if p = .ncs then l else s.ncs := by cases p <;> rfl
@[simp] theorem pinWrite_sclk (p : OutPin) (l : Level) (s : State) : (pinWrite p l s).sclk = if p = .sclk then l else s.sclk := by cases p <;> rfl
@[simp] theorem pinWrite_sdo (p : OutPin) (l : Level) (s : State) : (pinWrite p l s).sdo = if p = .sdo then l else s.sdo := by cases p <;> rfl
@[simp] theorem pinWrite_sdoDir (p : OutPin) (l : Level) (s : State) : (pinWrite p l s).sdoDir = s.sdoDir := by cases p <;> rfl
@[simp] theorem pinWrite_ncsDir (p : OutPin) (l : Level) (s : State) : (pinWrite p l s).ncsDir = s.ncsDir := by cases p <;> rfl
@[simp] theorem pinWrite_sclkDir (p : OutPin) (l : Level) (s : State) : (pinWrite p l s).sclkDir = s.sclkDir := by cases p <;> rfl
@[simp] theorem pinWrite_sdiDir (p : OutPin) (l : Level) (s : State) : (pinWrite p l s).sdiDir = s.sdiDir := by cases p <;> rfl
@[simp] theorem pinWrite_txsr (p : OutPin) (l : Level) (s : State) : (pinWrite p l s).txsr = s.txsr := by cases p <;> rfl
@[simp] theorem pinWrite_rx (p : OutPin) (l : Level) (s : State) : (pinWrite p l s).rx = s.rx := by cases p <;> rfl
@[simp] theorem pinWrite_rxWritten (p : OutPin) (l : Level) (s : State) : (pinWrite p l s).rxWritten = s.rxWritten := by cases p <;> rfl
@[simp] theorem pinWrite_op (p : OutPin) (l : Level) (s : State) : (pinWrite p l s).op = s.op := by cases p <;> rfl
@[simp] theorem pinWrite_a (p : OutPin) (l : Level) (s : State) : (pinWrite p l s).a = s.a := by cases p <;> rfl
@[simp] theorem pinWrite_v (p : OutPin) (l : Level) (s : State) : (pinWrite p l s).v = s.v := by cases p <;> rfl
@[simp] theorem pinWrite_b (p : OutPin) (l : Level) (s : State) : (pinWrite p l s).b = s.b := by cases p <;> rfl
@[simp] theorem pinWrite_bWritten (p : OutPin) (l : Level) (s : State) : (pinWrite p l s).bWritten = s.bWritten := by cases p <;> rfl
@[simp] theorem pinWrite_seq (p : OutPin) (l : Level) (s : State) : (pinWrite p l s).seq = s.seq := by cases p <;> rfl
@[simp] theorem pinWrite_rxsr (p : OutPin) (l : Level) (s : State) : (pinWrite p l s).rxsr = s.rxsr := by cases p <;> rfl
@[simp] theorem pinWrite_txnDone (p : OutPin) (l : Level) (s : State) : (pinWrite p l s).txnDone = s.txnDone := by cases p <;> rfl
@[simp] theorem pinWrite_viol (p : OutPin) (l : Level) (s : State) : (pinWrite p l s).viol = s.viol := by cases p <;> rfl
@[simp] theorem pinWrite_trace (p : OutPin) (l : Level) (s : State) : (pinWrite p l s).trace = s.trace ++ [.write p l] := by cases p <;> rfl
@[simp] theorem pinWrite_returned (p : OutPin) (l : Level) (s : State) : (pinWrite p l s).returned = s.returned := by cases p <;> rfl
@[simp] theorem pinWrite_sdi (p : OutPin) (l : Level) (s : State) : (pinWrite p l s).sdi = s.sdi := by cases p <;> rfl
@[simp] theorem pinWrite_sampled (p : OutPin) (l : Level) (s : State) : (pinWrite p l s).sampled = s.sampled := by cases p <;> rfl
@[simp] theorem pinWrite_inbox (p : OutPin) (l : Level) (s : State) : (pinWrite p l s).inbox = s.inbox := by cases p <;> rfl

@[simp] theorem pinMode_pins (p : Pin) (d : Dir) (s : State) : (pinMode p d s).pins = s.pins := by cases p <;> rfl
@[simp] theorem pinMode_ncs (p : Pin) (d : Dir) (s : State) : (pinMode p d s).ncs = s.ncs := by cases p <;> rfl
@[simp] theorem pinMode_sclk (p : Pin) (d : Dir) (s : State) : (pinMode p d s).sclk = s.sclk := by cases p <;> rfl
@[simp] theorem pinMode_sdo (p : Pin) (d : Dir) (s : State) : (pinMode p d s).sdo = s.sdo := by cases p <;> rfl
@[simp] theorem pinMode_sdoDir (p : Pin) (d : Dir) (s : State) : (pinMode p d s).sdoDir = if p = .sdo then d else s.sdoDir := by cases p <;> rfl
@[simp] theorem pinMode_ncsDir (p : Pin) (d : Dir) (s : State) : (pinMode p d s).ncsDir = if p = .ncs then d else s.ncsDir := by cases p <;> rfl
@[simp] theorem pinMode_sclkDir (p : Pin) (d : Dir) (s : State) : (pinMode p d s).sclkDir = if p = .sclk then d else s.sclkDir := by cases p <;> rfl
@[simp] theorem pinMode_sdiDir (p : Pin) (d : Dir) (s : State) : (pinMode p d s).sdiDir = if p = .sdi then d else s.sdiDir := by cases p <;> rfl
@[simp] theorem pinMode_txsr (p : Pin) (d : Dir) (s : State) : (pinMode p d s).txsr = s.txsr := by cases p <;> rfl
@[simp] theorem pinMode_rx (p : Pin) (d : Dir) (s : State) : (pinMode p d s).rx = s.rx := by cases p <;> rfl
@[simp] theorem pinMode_rxWritten (p : Pin) (d : Dir) (s : State) : (pinMode p d s).rxWritten = s.rxWritten := by cases p <;> rfl
@[simp] theorem pinMode_op (p : Pin) (d : Dir) (s : State) : (pinMode p d s).op = s.op := by cases p <;> rfl
@[simp] theorem pinMode_a (p : Pin) (d : Dir) (s : State) : (pinMode p d s).a = s.a := by cases p <;> rfl
@[simp] theorem pinMode_v (p : Pin) (d : Dir) (s : State) : (pinMode p d s).v = s.v := by cases p <;> rfl
@[simp] theorem pinMode_b (p : Pin) (d : Dir) (s : State) : (pinMode p d s).b = s.b := by cases p <;> rfl
@[simp] theorem pinMode_bWritten (p : Pin) (d : Dir) (s : State) : (pinMode p d s).bWritten = s.bWritten := by cases p <;> rfl
@[simp] theorem pinMode_seq (p : Pin) (d : Dir) (s : State) : (pinMode p d s).seq = s.seq := by cases p <;> rfl
@[simp] theorem pinMode_rxsr (p : Pin) (d : Dir) (s : State) : (pinMode p d s).rxsr = s.rxsr := by cases p <;> rfl
@[simp] theorem pinMode_txnDone (p : Pin) (d : Dir) (s : State) : (pinMode p d s).txnDone = s.txnDone := by cases p <;> rfl
@[simp] theorem pinMode_viol (p : Pin) (d : Dir) (s : State) : (pinMode p d s).viol = s.viol := by cases p <;> rfl
@[simp] theorem pinMode_trace (p : Pin) (d : Dir) (s : State) : (pinMode p d s).trace = s.trace ++ [.mode p d] := by cases p <;> rfl
@[simp] theorem pinMode_returned (p : Pin) (d : Dir) (s : State) : (pinMode p d s).returned = s.returned := by cases p <;> rfl
@[simp] theorem pinMode_sdi (p : Pin) (d : Dir) (s : State) : (pinMode p d s).sdi = s.sdi := by cases p <;> rfl
@[simp] theorem pinMode_sampled (p : Pin) (d : Dir) (s : State) : (pinMode p d s).sampled = s.sampled := by cases p <;> rfl
@[simp] theorem pinMode_inbox (p : Pin) (d : Dir) (s : State) : (pinMode p d s).inbox = s.inbox := by cases p <;> rfl

@[simp] theorem setRx_pins (r : Byte) (s : State) : (setRx r s).pins = s.pins := rfl
@[simp] theorem setRx_ncs (r : Byte) (s : State) : (setRx r s).ncs = s.ncs := rfl
@[simp] theorem setRx_sclk (r : Byte) (s : State) : (setRx r s).sclk = s.sclk := rfl
@[simp] theorem setRx_sdo (r : Byte) (s : State) : (setRx r s).sdo = s.sdo := rfl
@[simp] theorem setRx_sdoDir (r : Byte) (s : State) : (setRx r s).sdoDir = s.sdoDir := rfl
@[simp] theorem setRx_ncsDir (r : Byte) (s : State) : (setRx r s).ncsDir = s.ncsDir := rfl
@[simp] theorem setRx_sclkDir (r : Byte) (s : State) : (setRx r s).sclkDir = s.sclkDir := rfl
@[simp] theorem setRx_sdiDir (r : Byte) (s : State) : (setRx r s).sdiDir = s.sdiDir := rfl
@[simp] theorem setRx_txsr (r : Byte) (s : State) : (setRx r s).txsr = s.txsr := rfl
@[simp] theorem setRx_rx (r : Byte) (s : State) : (setRx r s).rx = r := rfl
@[simp] theorem setRx_rxWritten (r : Byte) (s : State) : (setRx r s).rxWritten = true := rfl
@[simp] theorem setRx_op (r : Byte) (s : State) : (setRx r s).op = s.op := rfl
@[simp] theorem setRx_a (r : Byte) (s : State) : (setRx r s).a = s.a := rfl
@[simp] theorem setRx_v (r : Byte) (s : State) : (setRx r s).v = s.v := rfl
@[simp] theorem setRx_b (r : Byte) (s : State) : (setRx r s).b = s.b := rfl
@[simp] theorem setRx_bWritten (r : Byte) (s : State) : (setRx r s).bWritten = s.bWritten := rfl
@[simp] theorem setRx_seq (r : Byte) (s : State) : (setRx r s).seq = s.seq := rfl
@[simp] theorem setRx_rxsr (r : Byte) (s : State) : (setRx r s).rxsr = s.rxsr := rfl
@[simp] theorem setRx_txnDone (r : Byte) (s : State) : (setRx r s).txnDone = s.txnDone := rfl
@[simp] theorem setRx_viol (r : Byte) (s : State) : (setRx r s).viol = s.viol := rfl
@[simp] theorem setRx_trace (r : Byte) (s : State) : (setRx r s).trace = s.trace := rfl
@[simp] theorem setRx_returned (r : Byte) (s : State) : (setRx r s).returned = s.returned := rfl
@[simp] theorem setRx_sdi (r : Byte) (s : State) : (setRx r s).sdi = s.sdi := rfl
@[simp] theorem setRx_sampled (r : Byte) (s : State) : (setRx r s).sampled = s.sampled := rfl
@[simp] theorem setRx_inbox (r : Byte) (s : State) : (setRx r s).inbox = s.inbox := rfl

@[simp] theorem setB_pins (k : Fin Config.burstLen) (r : Byte) (s : State) : (setB k r s).pins = s.pins := rfl
@[simp] theorem setB_ncs (k : Fin Config.burstLen) (r : Byte) (s : State) : (setB k r s).ncs = s.ncs := rfl
@[simp] theorem setB_sclk (k : Fin Config.burstLen) (r : Byte) (s : State) : (setB k r s).sclk = s.sclk := rfl
@[simp] theorem setB_sdo (k : Fin Config.burstLen) (r : Byte) (s : State) : (setB k r s).sdo = s.sdo := rfl
@[simp] theorem setB_sdoDir (k : Fin Config.burstLen) (r : Byte) (s : State) : (setB k r s).sdoDir = s.sdoDir := rfl
@[simp] theorem setB_ncsDir (k : Fin Config.burstLen) (r : Byte) (s : State) : (setB k r s).ncsDir = s.ncsDir := rfl
@[simp] theorem setB_sclkDir (k : Fin Config.burstLen) (r : Byte) (s : State) : (setB k r s).sclkDir = s.sclkDir := rfl
@[simp] theorem setB_sdiDir (k : Fin Config.burstLen) (r : Byte) (s : State) : (setB k r s).sdiDir = s.sdiDir := rfl
@[simp] theorem setB_txsr (k : Fin Config.burstLen) (r : Byte) (s : State) : (setB k r s).txsr = s.txsr := rfl
@[simp] theorem setB_rx (k : Fin Config.burstLen) (r : Byte) (s : State) : (setB k r s).rx = s.rx := rfl
@[simp] theorem setB_rxWritten (k : Fin Config.burstLen) (r : Byte) (s : State) : (setB k r s).rxWritten = s.rxWritten := rfl
@[simp] theorem setB_op (k : Fin Config.burstLen) (r : Byte) (s : State) : (setB k r s).op = s.op := rfl
@[simp] theorem setB_a (k : Fin Config.burstLen) (r : Byte) (s : State) : (setB k r s).a = s.a := rfl
@[simp] theorem setB_v (k : Fin Config.burstLen) (r : Byte) (s : State) : (setB k r s).v = s.v := rfl
@[simp] theorem setB_b (k : Fin Config.burstLen) (r : Byte) (s : State) : (setB k r s).b = s.b.set k.val r := rfl
@[simp] theorem setB_bWritten (k : Fin Config.burstLen) (r : Byte) (s : State) : (setB k r s).bWritten = s.bWritten.set k.val true := rfl
@[simp] theorem setB_seq (k : Fin Config.burstLen) (r : Byte) (s : State) : (setB k r s).seq = s.seq := rfl
@[simp] theorem setB_rxsr (k : Fin Config.burstLen) (r : Byte) (s : State) : (setB k r s).rxsr = s.rxsr := rfl
@[simp] theorem setB_txnDone (k : Fin Config.burstLen) (r : Byte) (s : State) : (setB k r s).txnDone = s.txnDone := rfl
@[simp] theorem setB_viol (k : Fin Config.burstLen) (r : Byte) (s : State) : (setB k r s).viol = s.viol := rfl
@[simp] theorem setB_trace (k : Fin Config.burstLen) (r : Byte) (s : State) : (setB k r s).trace = s.trace := rfl
@[simp] theorem setB_returned (k : Fin Config.burstLen) (r : Byte) (s : State) : (setB k r s).returned = s.returned := rfl
@[simp] theorem setB_sdi (k : Fin Config.burstLen) (r : Byte) (s : State) : (setB k r s).sdi = s.sdi := rfl
@[simp] theorem setB_sampled (k : Fin Config.burstLen) (r : Byte) (s : State) : (setB k r s).sampled = s.sampled := rfl
@[simp] theorem setB_inbox (k : Fin Config.burstLen) (r : Byte) (s : State) : (setB k r s).inbox = s.inbox := rfl

@[simp] theorem latchCommand_pins (cw : CmdWord) (s : State) : (latchCommand cw s).pins = s.pins := rfl
@[simp] theorem latchCommand_ncs (cw : CmdWord) (s : State) : (latchCommand cw s).ncs = s.ncs := rfl
@[simp] theorem latchCommand_sclk (cw : CmdWord) (s : State) : (latchCommand cw s).sclk = s.sclk := rfl
@[simp] theorem latchCommand_sdo (cw : CmdWord) (s : State) : (latchCommand cw s).sdo = s.sdo := rfl
@[simp] theorem latchCommand_sdoDir (cw : CmdWord) (s : State) : (latchCommand cw s).sdoDir = s.sdoDir := rfl
@[simp] theorem latchCommand_ncsDir (cw : CmdWord) (s : State) : (latchCommand cw s).ncsDir = s.ncsDir := rfl
@[simp] theorem latchCommand_sclkDir (cw : CmdWord) (s : State) : (latchCommand cw s).sclkDir = s.sclkDir := rfl
@[simp] theorem latchCommand_sdiDir (cw : CmdWord) (s : State) : (latchCommand cw s).sdiDir = s.sdiDir := rfl
@[simp] theorem latchCommand_txsr (cw : CmdWord) (s : State) : (latchCommand cw s).txsr = s.txsr := rfl
@[simp] theorem latchCommand_rx (cw : CmdWord) (s : State) : (latchCommand cw s).rx = s.rx := rfl
@[simp] theorem latchCommand_rxWritten (cw : CmdWord) (s : State) : (latchCommand cw s).rxWritten = s.rxWritten := rfl
@[simp] theorem latchCommand_op (cw : CmdWord) (s : State) : (latchCommand cw s).op = opField cw := rfl
@[simp] theorem latchCommand_a (cw : CmdWord) (s : State) : (latchCommand cw s).a = addrField cw := rfl
@[simp] theorem latchCommand_v (cw : CmdWord) (s : State) : (latchCommand cw s).v = dataField cw := rfl
@[simp] theorem latchCommand_b (cw : CmdWord) (s : State) : (latchCommand cw s).b = s.b := rfl
@[simp] theorem latchCommand_bWritten (cw : CmdWord) (s : State) : (latchCommand cw s).bWritten = s.bWritten := rfl
@[simp] theorem latchCommand_seq (cw : CmdWord) (s : State) : (latchCommand cw s).seq = s.seq := rfl
@[simp] theorem latchCommand_rxsr (cw : CmdWord) (s : State) : (latchCommand cw s).rxsr = s.rxsr := rfl
@[simp] theorem latchCommand_txnDone (cw : CmdWord) (s : State) : (latchCommand cw s).txnDone = s.txnDone := rfl
@[simp] theorem latchCommand_viol (cw : CmdWord) (s : State) : (latchCommand cw s).viol = s.viol := rfl
@[simp] theorem latchCommand_trace (cw : CmdWord) (s : State) : (latchCommand cw s).trace = s.trace := rfl
@[simp] theorem latchCommand_returned (cw : CmdWord) (s : State) : (latchCommand cw s).returned = s.returned := rfl
@[simp] theorem latchCommand_sdi (cw : CmdWord) (s : State) : (latchCommand cw s).sdi = s.sdi := rfl
@[simp] theorem latchCommand_sampled (cw : CmdWord) (s : State) : (latchCommand cw s).sampled = s.sampled := rfl
@[simp] theorem latchCommand_inbox (cw : CmdWord) (s : State) : (latchCommand cw s).inbox = s.inbox := rfl

@[simp] theorem completeCommand_pins (s : State) : (completeCommand s).pins = s.pins := rfl
@[simp] theorem completeCommand_ncs (s : State) : (completeCommand s).ncs = s.ncs := rfl
@[simp] theorem completeCommand_sclk (s : State) : (completeCommand s).sclk = s.sclk := rfl
@[simp] theorem completeCommand_sdo (s : State) : (completeCommand s).sdo = s.sdo := rfl
@[simp] theorem completeCommand_sdoDir (s : State) : (completeCommand s).sdoDir = s.sdoDir := rfl
@[simp] theorem completeCommand_ncsDir (s : State) : (completeCommand s).ncsDir = s.ncsDir := rfl
@[simp] theorem completeCommand_sclkDir (s : State) : (completeCommand s).sclkDir = s.sclkDir := rfl
@[simp] theorem completeCommand_sdiDir (s : State) : (completeCommand s).sdiDir = s.sdiDir := rfl
@[simp] theorem completeCommand_txsr (s : State) : (completeCommand s).txsr = s.txsr := rfl
@[simp] theorem completeCommand_rx (s : State) : (completeCommand s).rx = s.rx := rfl
@[simp] theorem completeCommand_rxWritten (s : State) : (completeCommand s).rxWritten = s.rxWritten := rfl
@[simp] theorem completeCommand_op (s : State) : (completeCommand s).op = s.op := rfl
@[simp] theorem completeCommand_a (s : State) : (completeCommand s).a = s.a := rfl
@[simp] theorem completeCommand_v (s : State) : (completeCommand s).v = s.v := rfl
@[simp] theorem completeCommand_b (s : State) : (completeCommand s).b = s.b := rfl
@[simp] theorem completeCommand_bWritten (s : State) : (completeCommand s).bWritten = s.bWritten := rfl
@[simp] theorem completeCommand_seq (s : State) : (completeCommand s).seq = Seq.atRest := rfl
@[simp] theorem completeCommand_rxsr (s : State) : (completeCommand s).rxsr = 0 := rfl
@[simp] theorem completeCommand_txnDone (s : State) : (completeCommand s).txnDone = (s.txnDone || isRegisterOp s.op) := rfl
@[simp] theorem completeCommand_viol (s : State) : (completeCommand s).viol = s.viol := rfl
@[simp] theorem completeCommand_trace (s : State) : (completeCommand s).trace = s.trace := rfl
@[simp] theorem completeCommand_returned (s : State) : (completeCommand s).returned = s.returned ++ [resultOf s.op s] := rfl
@[simp] theorem completeCommand_sdi (s : State) : (completeCommand s).sdi = s.sdi := rfl
@[simp] theorem completeCommand_sampled (s : State) : (completeCommand s).sampled = s.sampled := rfl
@[simp] theorem completeCommand_inbox (s : State) : (completeCommand s).inbox = s.inbox := rfl

@[simp] theorem record_pins (x : Violation) (s : State) : (record x s).pins = s.pins := by unfold record; split <;> rfl
@[simp] theorem record_ncs (x : Violation) (s : State) : (record x s).ncs = s.ncs := by unfold record; split <;> rfl
@[simp] theorem record_sclk (x : Violation) (s : State) : (record x s).sclk = s.sclk := by unfold record; split <;> rfl
@[simp] theorem record_sdo (x : Violation) (s : State) : (record x s).sdo = s.sdo := by unfold record; split <;> rfl
@[simp] theorem record_sdoDir (x : Violation) (s : State) : (record x s).sdoDir = s.sdoDir := by unfold record; split <;> rfl
@[simp] theorem record_ncsDir (x : Violation) (s : State) : (record x s).ncsDir = s.ncsDir := by unfold record; split <;> rfl
@[simp] theorem record_sclkDir (x : Violation) (s : State) : (record x s).sclkDir = s.sclkDir := by unfold record; split <;> rfl
@[simp] theorem record_sdiDir (x : Violation) (s : State) : (record x s).sdiDir = s.sdiDir := by unfold record; split <;> rfl
@[simp] theorem record_txsr (x : Violation) (s : State) : (record x s).txsr = s.txsr := by unfold record; split <;> rfl
@[simp] theorem record_rx (x : Violation) (s : State) : (record x s).rx = s.rx := by unfold record; split <;> rfl
@[simp] theorem record_rxWritten (x : Violation) (s : State) : (record x s).rxWritten = s.rxWritten := by unfold record; split <;> rfl
@[simp] theorem record_op (x : Violation) (s : State) : (record x s).op = s.op := by unfold record; split <;> rfl
@[simp] theorem record_a (x : Violation) (s : State) : (record x s).a = s.a := by unfold record; split <;> rfl
@[simp] theorem record_v (x : Violation) (s : State) : (record x s).v = s.v := by unfold record; split <;> rfl
@[simp] theorem record_b (x : Violation) (s : State) : (record x s).b = s.b := by unfold record; split <;> rfl
@[simp] theorem record_bWritten (x : Violation) (s : State) : (record x s).bWritten = s.bWritten := by unfold record; split <;> rfl
@[simp] theorem record_seq (x : Violation) (s : State) : (record x s).seq = s.seq := by unfold record; split <;> rfl
@[simp] theorem record_rxsr (x : Violation) (s : State) : (record x s).rxsr = s.rxsr := by unfold record; split <;> rfl
@[simp] theorem record_txnDone (x : Violation) (s : State) : (record x s).txnDone = s.txnDone := by unfold record; split <;> rfl
@[simp] theorem record_viol (x : Violation) (s : State) : (record x s).viol = if x ∈ s.viol then s.viol else s.viol ++ [x] := by unfold record; split <;> rfl
@[simp] theorem record_trace (x : Violation) (s : State) : (record x s).trace = s.trace := by unfold record; split <;> rfl
@[simp] theorem record_returned (x : Violation) (s : State) : (record x s).returned = s.returned := by unfold record; split <;> rfl
@[simp] theorem record_sdi (x : Violation) (s : State) : (record x s).sdi = s.sdi := by unfold record; split <;> rfl
@[simp] theorem record_sampled (x : Violation) (s : State) : (record x s).sampled = s.sampled := by unfold record; split <;> rfl
@[simp] theorem record_inbox (x : Violation) (s : State) : (record x s).inbox = s.inbox := by unfold record; split <;> rfl

end Sys2Proof.Machine
end

