-- ==== Sys2Proof/Laws/Ops.lean ====
section
/-! SUPPORT. One lemma per shared operation that says everything it can do: the cells, the byte frames, the burst, the
entry check, acceptance and the two ways of performing a command. Cite these instead of unfolding. -/

namespace Sys2Proof.Machine

/-- The byte indices of a burst, written out for the source's length. -/
theorem bytesUp_eq : bytesUp = [0, 1, 2, 3, 4, 5, 6, 7] := rfl

@[simp] theorem lastByte_eq : lastByte = 7 := rfl

/-- The bits of a byte as they travel, written out for the source's width. -/
theorem bitsDown_eq : bitsDown = [7, 6, 5, 4, 3, 2, 1, 0] := rfl

@[simp] theorem topBit_eq : topBit = 7 := rfl

/-- A byte has more than one bit: its first position is not its last. -/
@[simp] theorem topBit_ne_zero : topBit ≠ 0 := by decide

@[simp] theorem zero_ne_topBit : 0 ≠ topBit := by decide

theorem outCell_eq (x : Level) (s : State) :
    outCell x s = { s with sclk := true, sdo := x, trace := s.trace ++ outCellEvents x } := by
  simp [outCell, delay, pinWrite, emit, outCellEvents]

theorem inCell_eq (s : State) :
    inCell s = (s.answer 0,
      { s with
        sclk := true, sdi := s.sdi.tail, sampled := s.sampled + 1
        trace := s.trace ++ inCellEvents (s.answer 0) }) := by
  simp [inCell, pinRead, pinWrite, emit, inCellEvents, State.answer]

/-- The answers after one sample are the next ones. -/
theorem answer_congr {s t : State} (n : Nat) (h1 : t.sdi = s.sdi) (h2 : t.sampled = s.sampled) :
    t.answer n = s.answer n := by
  simp [State.answer, h1, h2]

theorem answer_drop {s t : State} (m n : Nat) (h1 : t.sdi = s.sdi.drop m) (h2 : t.sampled = s.sampled + m) :
    t.answer n = s.answer (m + n) := by
  simp [State.answer, h1, h2, List.getElem?_drop, Nat.add_assoc]

theorem bitOf_placeBit (r : Byte) (i j : Fin Config.dataW) (x : Level) :
    bitOf (placeBit r i x) j = if j = i then x else bitOf r j := by
  revert r
  cases x <;> revert i j <;> decide

theorem sendByte_eq (x : Byte) (s : State) :
    sendByte x s =
      { s with txsr := x, sclk := true, sdo := bitOf x 0, trace := s.trace ++ outByteEvents x } := by
  simp [sendByte, bitsDown_eq, outCell_eq, outByteEvents]

theorem bitOf_answerByte (s : State) (n : Nat) (i : Fin Config.dataW) :
    bitOf (s.answerByte n) i = s.answer (n + (topBit.val - i.val)) := by
  simp only [State.answerByte, bitsDown_eq, List.foldl_cons, List.foldl_nil, bitOf_placeBit]
  fin_cases i <;> rfl

theorem receiveByte_eq (s : State) :
    receiveByte s = (s.answerByte 0,
      { s with
        sclk := true, sdi := s.sdi.drop Config.dataW, sampled := s.sampled + Config.dataW
        trace := s.trace ++ inByteEvents (s.answerByte 0) }) := by
  have h : inByteEvents (s.answerByte 0) =
      .delay .tInSettle :: bitsDown.flatMap (fun i => inCellEvents (s.answer (topBit.val - i.val))) := by
    simp [inByteEvents, bitOf_answerByte]
  rw [h]
  simp [receiveByte, bitsDown_eq, topBit_eq, Config.dataW, shiftInBit, inCell_eq, delay, emit, State.answerByte]
  simp [State.answer]
  simp only [← List.drop_one, List.drop_drop]

theorem answerByte_drop {s t : State} (m n : Nat) (h1 : t.sdi = s.sdi.drop m) (h2 : t.sampled = s.sampled + m) :
    t.answerByte n = s.answerByte (m + n) := by
  simp only [State.answerByte, answer_drop m _ h1 h2, Nat.add_assoc]

theorem receiveBurstByte_eq (k : Fin Config.burstLen) (s : State) :
    receiveBurstByte k s =
      { s with
        sclk := true, sdi := s.sdi.drop Config.dataW, sampled := s.sampled + Config.dataW
        b := s.b.set k.val (s.answerByte 0), bWritten := s.bWritten.set k.val true
        trace := s.trace ++ inByteEvents (s.answerByte 0) } := by
  simp [receiveBurstByte, receiveByte_eq, setB]


/-- `State.answerByte` as a function of the two fields it reads. -/
def byteOfAnswers (sdi : List Level) (sampled n : Nat) : Byte :=
  bitsDown.foldl
    (fun r i => placeBit r i ((sdi[n + (topBit.val - i.val)]?).getD (Config.sdiAnswer (sampled + (n + (topBit.val - i.val)))))) 0

theorem answerByte_eq (s : State) (n : Nat) : s.answerByte n = byteOfAnswers s.sdi s.sampled n := rfl

theorem byteOfAnswers_drop (sdi : List Level) (sampled m n : Nat) :
    byteOfAnswers (sdi.drop m) (sampled + m) n = byteOfAnswers sdi sampled (m + n) := by
  simp only [byteOfAnswers, List.getElem?_drop, Nat.add_assoc]

theorem answerBurst_get (s : State) (k : Fin Config.burstLen) : s.answerBurst[k.val] = s.answerByte (Config.dataW * k.val) := by
  simp [State.answerBurst]

/-- The first `m` bytes of a burst: the bytes of the next `Config.dataW * m` answers in `B[0]` to `B[m - 1]`, for any burst length. -/
theorem receiveBurst_take (s : State) (m : Nat) (hm : m ≤ Config.burstLen) :
    (bytesUp.take m).foldl (fun s k => receiveBurstByte k s) s =
      { s with
        sclk := s.sclk || decide (0 < m), sdi := s.sdi.drop (Config.dataW * m), sampled := s.sampled + Config.dataW * m
        b := Vector.ofFn (fun k => if k.val < m then s.answerByte (Config.dataW * k.val) else s.b[k.val])
        bWritten := Vector.ofFn (fun k => decide (k.val < m) || s.bWritten[k.val])
        trace := s.trace ++ (bytesUp.take m).flatMap (fun k => inByteEvents (s.answerByte (Config.dataW * k.val))) } := by
  induction m with
  | zero =>
    simp only [List.take_zero, List.foldl_nil, List.flatMap_nil, List.append_nil, Nat.mul_zero, List.drop_zero]
    cases s
    simp
  | succ m ih =>
    have hlt : m < Config.burstLen := hm
    have htake : bytesUp.take (m + 1) = bytesUp.take m ++ [⟨m, hlt⟩] := by
      rw [List.take_succ_eq_append_getElem (by simpa [bytesUp] using hlt)]
      simp [bytesUp]
    rw [htake, List.foldl_append, ih (Nat.le_of_lt hlt), List.flatMap_append, List.foldl_cons, List.foldl_nil,
      receiveBurstByte_eq, answerByte_eq, byteOfAnswers_drop]
    simp only [State.mk.injEq, true_and, and_true]
    refine ⟨by simp, ?_, ?_, ?_, by rw [List.drop_drop, Nat.mul_succ], by rw [Nat.mul_succ, Nat.add_assoc]⟩
    · ext k hk : 1
      simp only [Vector.getElem_set, Vector.getElem_ofFn, answerByte_eq, Nat.add_zero]
      by_cases h : m = k
      · subst h; simp
      · rw [if_neg h]
        by_cases h2 : k < m
        · rw [if_pos h2, if_pos (by omega)]
        · rw [if_neg h2, if_neg (by omega)]
    · ext k hk : 1
      simp only [Vector.getElem_set, Vector.getElem_ofFn]
      by_cases h : m = k
      · subst h; simp
      · rw [if_neg h]
        by_cases h2 : k < m
        · simp [h2, show k < m + 1 by omega]
        · simp [h2, show ¬ k < m + 1 by omega]
    · simp [answerByte_eq]

/-- Everything the bytes of a burst do (R133). -/
theorem receiveBurst_eq (s : State) :
    bytesUp.foldl (fun s k => receiveBurstByte k s) s =
      { s with
        sclk := true, sdi := s.sdi.drop (Config.dataW * Config.burstLen), sampled := s.sampled + Config.dataW * Config.burstLen
        b := s.answerBurst, bWritten := Vector.replicate Config.burstLen true
        trace := s.trace ++ bytesUp.flatMap (fun k => inByteEvents s.answerBurst[k.val]) } := by
  have h := receiveBurst_take s Config.burstLen (Nat.le_refl _)
  have hall : bytesUp.take Config.burstLen = bytesUp := List.take_of_length_le (by simp [bytesUp])
  rw [hall] at h
  rw [h]
  simp only [State.mk.injEq, true_and, and_true, answerBurst_get]
  refine ⟨by simp, ?_, ?_⟩
  · ext k hk : 1
    simp [State.answerBurst]
  · ext k hk : 1
    simp

/-- Everything the entry check can do (R166, R169). -/
theorem checkEntry_cases (cw : CmdWord) (s : State) :
    (s.ncs = true ∧ checkEntry cw s = record (.ncsHighOnEntry cw) s) ∨
    (s.ncs = false ∧ s.txnDone = true ∧ checkEntry cw s = record (.transactionNotDelimited cw) s) ∨
    (s.ncs = false ∧ s.txnDone = false ∧ checkEntry cw s = s) := by
  cases hn : s.ncs <;> cases ht : s.txnDone <;> simp [checkEntry, entryViolation, Config.csStrict, hn, ht]

/-- The entry check touches `G_VIOL` alone. -/
theorem checkEntry_eq (cw : CmdWord) (s : State) : checkEntry cw s = { s with viol := (checkEntry cw s).viol } := by
  obtain ⟨-, h⟩ | ⟨-, -, h⟩ | ⟨-, -, h⟩ := checkEntry_cases cw s <;> rw [h]
  all_goals unfold record; split <;> rfl

theorem record_eq (x : Violation) (s : State) : record x s = { s with viol := (record x s).viol } := by
  unfold record; split <;> rfl

/-- What acceptance writes: the three latches, the position, and `G_VIOL` (R29, R31, R166). -/
theorem acceptCommand_eq (cw : CmdWord) (s : State) :
    acceptCommand cw s =
      { s with
        op := opField cw, a := addrField cw, v := dataField cw, seq := firstSeq (opField cw)
        viol := if isWireOp (opField cw) then (checkEntry cw s).viol else s.viol } := by
  unfold acceptCommand latchCommand
  split
  · rw [checkEntry_eq]
  · rfl

/-- Performing a command ends in V3 while busy, and otherwise completes. -/
theorem performCommand_cases (cw : CmdWord) (body : State → State) (s : State) :
    (s.busy = true ∧ performCommand cw body s = .fault (.reentry (record (.reentry cw) s))) ∨
    (s.busy = false ∧ performCommand cw body s = .next (completeCommand (body (acceptCommand cw s)))) := by
  cases h : s.busy <;> simp [performCommand, stopReentry, h]

theorem addressFits_iff (addr : Byte) : addressFits addr = true ↔ addr.toNat < 0x80 := by
  simp [addressFits, Config.addrW]

/-- A register command ends in V3 while busy, in a V5 mark where the operand is no 7-bit value, and otherwise completes. -/
theorem performRegisterCommand_cases (i : Instr) (addr : Byte) (body : State → State) (s : State) :
    (s.busy = true ∧ performRegisterCommand i addr body s = .fault (.reentry (record (.reentry (encode i)) s))) ∨
    (s.busy = false ∧ 0x80 ≤ addr.toNat ∧
      performRegisterCommand i addr body s = .next (record (.addressOutOfRange addr) s)) ∨
    (s.busy = false ∧ addr.toNat < 0x80 ∧
      performRegisterCommand i addr body s = .next (completeCommand (body (acceptCommand (encode i) s)))) := by
  by_cases hb : s.busy = true
  · simp [performRegisterCommand, stopReentry, hb]
  · by_cases ha : addr.toNat < 0x80
    · simp [performRegisterCommand, performCommand, addressFits_iff, hb, ha]
    · simp [performRegisterCommand, addressFits_iff, hb, ha]
      omega

theorem addrInRange_iff_addressFits (addr : Byte) : addrInRange addr = addressFits addr := rfl

end Sys2Proof.Machine
end

