-- ==== Sys2Proof/Laws/Safety.lean ====
section
/-! SUPPORT. Small lemmas about the terms of Safety.lean: the entry marks, the address byte of a 7-bit operand, and what
appending events does to the wire, the counts and the durations. -/

namespace Sys2Proof.Machine

theorem checkEntry_viol (cw : CmdWord) (s : State) : (checkEntry cw s).viol = s.violAfterEntry cw := by
  obtain ⟨h, e⟩ | ⟨h, h2, e⟩ | ⟨h, h2, e⟩ := checkEntry_cases cw s
  · simp [e, State.violAfterEntry, h]
  · simp [e, State.violAfterEntry, h, h2, Config.csStrict]
  · simp [e, State.violAfterEntry, h, h2]

/-- The address byte of a read is the operand itself (R89). -/
theorem addressByte_read (addr : Byte) (h : addr.toNat < 0x80) : addressByte false (addr.setWidth Config.addrW) = addr := by
  have all : ∀ x : Byte, x.toNat < 0x80 → addressByte false (x.setWidth Config.addrW) = x := by decide
  exact all addr h

theorem mem_record (x y : Violation) (s : State) : y ∈ (record x s).viol ↔ y ∈ s.viol ∨ y = x := by
  simp only [record_viol]
  split
  · constructor
    · exact Or.inl
    · rintro (h | rfl) <;> assumption
  · simp

theorem record_nodup (x : Violation) (s : State) (h : s.viol.Nodup) : (record x s).viol.Nodup := by
  simp only [record_viol]
  split
  · exact h
  · next hx =>
    rw [List.nodup_append]
    exact ⟨h, by simp, by intro a ha b hb; simp at hb; subst hb; rintro rfl; exact hx ha⟩

theorem afterAll_append (w : Wire) (es fs : List Event) : w.afterAll (es ++ fs) = (w.afterAll es).afterAll fs := by
  simp [Wire.afterAll]

theorem sdoQuiet_append (w : Wire) (es fs : List Event) :
    sdoQuietWhileHigh w (es ++ fs) = (sdoQuietWhileHigh w es && sdoQuietWhileHigh (w.afterAll es) fs) := by
  induction es generalizing w with
  | nil => simp [sdoQuietWhileHigh, Wire.afterAll]
  | cons e es ih =>
    have h : w.afterAll (e :: es) = (w.after e).afterAll es := rfl
    rw [List.cons_append, sdoQuietWhileHigh, ih, sdoQuietWhileHigh, h, Bool.and_assoc]

theorem risingBits_append (w : Wire) (es fs : List Event) :
    risingBits w (es ++ fs) = risingBits w es ++ risingBits (w.afterAll es) fs := by
  induction es generalizing w with
  | nil => rfl
  | cons e es ih =>
    have h : w.afterAll (e :: es) = (w.after e).afterAll es := rfl
    rw [List.cons_append, risingBits, ih, risingBits, h]
    split <;> rfl

theorem EventCounts.add_assoc (x y z : EventCounts) : (x.add y).add z = x.add (y.add z) := by
  simp [EventCounts.add, Nat.add_assoc]

theorem countEvents_append (es fs : List Event) :
    countEvents (es ++ fs) = (countEvents es).add (countEvents fs) := by
  induction es with
  | nil => simp [countEvents, EventCounts.add]
  | cons e es ih => rw [List.cons_append, countEvents, ih, countEvents, EventCounts.add_assoc]

theorem minDuration_append (τ : Timing) (es fs : List Event) :
    minDuration τ (es ++ fs) = minDuration τ es + minDuration τ fs := by
  simp [minDuration]

/-- Admissible durations add up to at least the minimum duration (R9). -/
theorem Admissible.minDuration_le {τ : Timing} {es : List Event} {ds : List Nat} (h : Admissible τ es ds) :
    minDuration τ es ≤ ds.sum := by
  induction h with
  | nil => simp [minDuration]
  | cons h _ ih => simp only [minDuration, List.map_cons, List.sum_cons] at ih ⊢; omega

end Sys2Proof.Machine
end

