-- ==== Sys2Proof/Laws/Sequencer.lean ====
section
/-! SUPPORT. The sequencer byte by byte: what the positions of one byte do, against the byte operations of Ops.lean. -/

namespace Sys2Proof.Machine

/-- Everything an out position does (R27, R110). -/
theorem tickOut_eq (x : Byte) (s : State) :
    tickOut x s =
      (let y := if s.seq.i = topBit then x else s.txsr
       { s with
         txsr := y, sclk := true, sdo := bitOf y s.seq.i
         trace := s.trace ++ outCellEvents (bitOf y s.seq.i) }) := by
  by_cases h : s.seq.i = 7 <;> simp [tickOut, h, outCell_eq]

/-- Everything an in position does (R112, R113, R133). -/
theorem tickIn_eq (s : State) :
    tickIn s =
      (let r := placeBit (if s.seq.i = topBit then 0 else s.rxsr) s.seq.i (s.answer 0)
       let last : Prop := s.seq.i = 0
       let burst : Prop := s.op = opReadBurst
       { s with
         sclk := true, rxsr := r, sdi := s.sdi.tail, sampled := s.sampled + 1
         rx := if last ∧ ¬ burst then r else s.rx
         rxWritten := if last ∧ ¬ burst then true else s.rxWritten
         b := if last ∧ burst then s.b.set s.seq.k.val r else s.b
         bWritten := if last ∧ burst then s.bWritten.set s.seq.k.val true else s.bWritten
         sdoDir := if last ∧ burst ∧ s.seq.k = lastByte then .output else s.sdoDir
         trace := s.trace ++ (if s.seq.i = topBit then [.delay .tInSettle] else []) ++ inCellEvents (s.answer 0)
           ++ (if last ∧ burst ∧ s.seq.k = lastByte then [.mode .sdo .output] else []) }) := by
  by_cases h7 : s.seq.i = 7
  · have h0 : s.seq.i ≠ 0 := by rw [h7]; decide
    simp [tickIn, h7, inCell_eq, State.answer, delay, emit]
  · by_cases h0 : s.seq.i = 0
    · by_cases ho : s.op = opReadBurst
      · by_cases hk : s.seq.k = 7
        · simp [tickIn, h0, ho, hk, inCell_eq, State.answer, setB, pinMode, emit]
        · simp [tickIn, h0, ho, hk, inCell_eq, State.answer, setB]
      · simp [tickIn, h0, ho, inCell_eq, State.answer, setRx]
    · simp [tickIn, h7, h0, inCell_eq, State.answer]

theorem ticks_add (m n : Nat) (s : State) : ticks (m + n) s = ticks n (ticks m s) := by
  induction m generalizing s with
  | zero => simp [ticks]
  | succ m ih => rw [Nat.succ_add]; simp [ticks, ih]
theorem positions_add (m n : Nat) (s : State) : positions (m + n) s = positions m s ++ positions n (ticks m s) := by
  induction m generalizing s with
  | zero => simp [ticks, positions]
  | succ m ih => rw [Nat.succ_add]; simp [ticks, positions, ih]

/-- The eight positions of an address byte send it and reach the gap (R130, R131). -/
theorem addr_byte (s : State) (h : s.seq = ⟨.addr, 0, topBit⟩) :
    ticks 8 s = { sendByte (addressByte (s.op == opWriteReg) s.a) s with seq := ⟨.gap, 0, topBit⟩ } ∧
    positions 8 s = bytePositions .addr 0 := by
  constructor
  · simp [ticks, tick, State.busy, h, topBit_eq, Config.dataW, positionEvents, tickOut, nextSeq, outCell_eq, sendByte_eq, outByteEvents, bitsDown_eq]
  · simp [positions, tick, State.busy, h, topBit_eq, Config.dataW, positionEvents, tickOut, nextSeq, outCell_eq, bytePositions, bitsDown_eq]

/-- The eight positions of a data byte out send `V` and complete the command (R111, R132). -/
theorem dataOut_byte (s : State) (h : s.seq = ⟨.dataOut, 0, topBit⟩) :
    ticks 8 s = completeCommand (sendByte s.v s)  ∧
    positions 8 s = bytePositions .dataOut 0 := by
  constructor
  · simp [ticks, tick, State.busy, h, topBit_eq, Config.dataW, positionEvents, tickOut, nextSeq, outCell_eq, sendByte_eq, outByteEvents, bitsDown_eq, Seq.atRest, completeCommand, resultOf]
  · simp [positions, tick, State.busy, h, topBit_eq, Config.dataW, positionEvents, tickOut, nextSeq, outCell_eq, bytePositions, bitsDown_eq]

/-- The first seven positions of an in byte: seven cells, none of which depends on the command. -/
theorem dataIn_seven (k : Fin Config.burstLen) (s : State) (h : s.seq = ⟨.dataIn, k, topBit⟩) :
    ticks 7 s =
      (let p := [7, 6, 5, 4, 3, 2, 1].foldl (fun p i => shiftInBit i p) (0, delay .tInSettle s)
       { p.2 with seq := ⟨.dataIn, k, 0⟩, rxsr := p.1 }) ∧
    positions 7 s = [7, 6, 5, 4, 3, 2, 1].map (fun i => ⟨.dataIn, k, i⟩) := by
  constructor
  · simp [ticks, tick, State.busy, h, topBit_eq, Config.dataW, positionEvents, tickIn, nextSeq, inCell_eq, shiftInBit, delay, emit, State.answer]
  · simp [positions, tick, State.busy, h, topBit_eq, Config.dataW, positionEvents, tickIn, nextSeq, inCell_eq]

/-- The in byte without its last cell. -/
theorem receiveByte_split (s : State) :
    receiveByte s = shiftInBit 0 ([7, 6, 5, 4, 3, 2, 1].foldl (fun p i => shiftInBit i p) (0, delay .tInSettle s)) :=
  rfl

/-- In cells leave the latched code and the position alone. -/
theorem shiftInBits_keep (is : List (Fin Config.dataW)) (p : Byte × State) :
    (is.foldl (fun p i => shiftInBit i p) p).2.op = p.2.op ∧ (is.foldl (fun p i => shiftInBit i p) p).2.seq = p.2.seq := by
  induction is generalizing p with
  | nil => exact ⟨rfl, rfl⟩
  | cons i is ih => rw [List.foldl_cons]; simpa [shiftInBit, inCell_eq] using ih (shiftInBit i p)

/-- The eight positions of an in byte outside a burst keep it in `RX` and complete the command (R113, R131). -/
theorem dataIn_byte (s : State) (h : s.seq = ⟨.dataIn, 0, topBit⟩) (ho : s.op ≠ opReadBurst) :
    ticks 8 s = completeCommand (setRx (receiveByte s).1 (receiveByte s).2) ∧
    positions 8 s = bytePositions .dataIn 0 := by
  obtain ⟨h1, h2⟩ := dataIn_seven 0 s h
  rw [ticks_add 7 1 s, positions_add 7 1 s, h1, h2, receiveByte_split]
  obtain ⟨ho', -⟩ := shiftInBits_keep [7, 6, 5, 4, 3, 2, 1] (0, delay .tInSettle s)
  generalize [7, 6, 5, 4, 3, 2, 1].foldl (fun p i => shiftInBit i p) (0, delay .tInSettle s) = p at ho' ⊢
  have hop : p.2.op ≠ opReadBurst := by simpa [ho'] using ho
  refine ⟨?_, rfl⟩
  simp [ticks, tick, State.busy, positionEvents, tickIn, nextSeq, inCell_eq, shiftInBit, setRx, hop, Seq.atRest,
    completeCommand, resultOf, State.answer]

/-- The eight positions of byte `k` of a burst keep it in `B[k]`; the last byte restores SDO and completes (R133). -/
theorem burstIn_byte (k : Fin Config.burstLen) (s : State) (h : s.seq = ⟨.dataIn, k, topBit⟩) (ho : s.op = opReadBurst) :
    ticks 8 s =
      (if k = lastByte then completeCommand (pinMode .sdo .output (receiveBurstByte k s))
       else { receiveBurstByte k s with seq := ⟨.dataIn, k + 1, topBit⟩, rxsr := (receiveByte s).1 }) ∧
    positions 8 s = bytePositions .dataIn k := by
  obtain ⟨h1, h2⟩ := dataIn_seven k s h
  rw [ticks_add 7 1 s, positions_add 7 1 s, h1, h2, receiveBurstByte, receiveByte_split]
  obtain ⟨ho', -⟩ := shiftInBits_keep [7, 6, 5, 4, 3, 2, 1] (0, delay .tInSettle s)
  generalize [7, 6, 5, 4, 3, 2, 1].foldl (fun p i => shiftInBit i p) (0, delay .tInSettle s) = p at ho' ⊢
  have hop : p.2.op = opReadBurst := by simpa [ho'] using ho
  refine ⟨?_, rfl⟩
  by_cases hk : k = 7
  · subst hk
    simp [ticks, tick, State.busy, positionEvents, tickIn, nextSeq, inCell_eq, shiftInBit, setB, hop, Seq.atRest,
      completeCommand, resultOf, State.answer, pinMode, emit, opReadBurst, opShiftIn, opReadReg]
  · simp [ticks, tick, State.busy, positionEvents, tickIn, nextSeq, inCell_eq, shiftInBit, setB, hop, hk, State.answer]

/-- The burst's bytes do not read `SEQ` or the local `r`. -/
theorem burstBytes_congr (ks : List (Fin Config.burstLen)) (s : State) (q : Seq) (r : Byte) :
    ks.foldl (fun s k => receiveBurstByte k s) { s with seq := q, rxsr := r } =
      { ks.foldl (fun s k => receiveBurstByte k s) s with seq := q, rxsr := r } := by
  induction ks generalizing s with
  | nil => rfl
  | cons k ks ih =>
    have h : receiveBurstByte k { s with seq := q, rxsr := r } = { receiveBurstByte k s with seq := q, rxsr := r } := by
      simp [receiveBurstByte_eq, answerByte_eq]
    rw [List.foldl_cons, h, ih, List.foldl_cons]

/-- The in-cell positions of a burst from byte `k` on are the bytes from `k` on, the restore of SDO and the completion, for
any burst length; `n` is how many bytes follow byte `k`. -/
theorem burstIn_from (n : Nat) (k : Fin Config.burstLen) (hk : k.val + n + 1 = Config.burstLen) (s : State)
    (h : s.seq = ⟨.dataIn, k, topBit⟩) (ho : s.op = opReadBurst) :
    ticks (8 * (n + 1)) s =
      completeCommand (pinMode .sdo .output ((bytesUp.drop k.val).foldl (fun s k => receiveBurstByte k s) s)) ∧
    positions (8 * (n + 1)) s = (bytesUp.drop k.val).flatMap (bytePositions .dataIn) := by
  induction n generalizing k s with
  | zero =>
    have hlast : k = lastByte := Fin.ext (by simp only [lastByte]; omega)
    have hdrop : bytesUp.drop k.val = [k] := by subst hlast; rfl
    obtain ⟨h1, h2⟩ := burstIn_byte k s h ho
    rw [if_pos hlast] at h1
    rw [hdrop]
    exact ⟨h1, by simpa using h2⟩
  | succ n ih =>
    have hne : k ≠ lastByte := fun e => by rw [e] at hk; simp only [lastByte] at hk; omega
    have hnext : (k + 1).val = k.val + 1 := by
      rw [Fin.val_add, Fin.val_one]
      exact Nat.mod_eq_of_lt (by omega)
    have hdrop : bytesUp.drop k.val = k :: bytesUp.drop (k + 1).val := by
      rw [hnext, List.drop_eq_getElem_cons (by simp [bytesUp])]
      simp [bytesUp]
    obtain ⟨h1, h2⟩ := burstIn_byte k s h ho
    rw [if_neg hne] at h1
    obtain ⟨h3, h4⟩ := ih (k + 1) (by omega) (ticks 8 s) (by simp [h1]) (by simp [h1, receiveBurstByte_eq, ho])
    rw [show 8 * (n + 1 + 1) = 8 + 8 * (n + 1) by omega, hdrop]
    constructor
    · rw [ticks_add, h3, h1, burstBytes_congr, List.foldl_cons]
      rfl
    · rw [positions_add, h2, h4, List.flatMap_cons]

/-- The in-cell positions of a burst are its bytes, the restore of SDO and the completion (R133). -/
theorem burstIn_all (s : State) (h : s.seq = ⟨.dataIn, 0, topBit⟩) (ho : s.op = opReadBurst) :
    ticks (Config.dataW * Config.burstLen) s =
      completeCommand (pinMode .sdo .output (bytesUp.foldl (fun s k => receiveBurstByte k s) s)) ∧
    positions (Config.dataW * Config.burstLen) s = bytesUp.flatMap (bytePositions .dataIn) :=
  burstIn_from (Config.burstLen - 1) 0 rfl s h ho

end Sys2Proof.Machine
end

