-- ==== Sys2Proof/Laws/Step.lean ====
section
/-! SUPPORT. What `exec` and `step` can do, said once: one inversion lemma each. Invariants are case analyses over these. -/

namespace Sys2Proof.Machine

/-- The event sequence of a command, by constructor. -/
def bodyOf : Instr → State → State
  | .csAssert => csAssertBody
  | .csRelease => csReleaseBody
  | .shiftOut _ => shiftOutBody
  | .shiftIn => shiftInBody
  | .readReg _ => readRegBody
  | .writeReg _ _ => writeRegBody
  | .readBurst _ => readBurstBody

/-- The state a command leaves when it completes. -/
def completed (i : Instr) (s : State) : State := completeCommand (bodyOf i (acceptCommand (encode i) s))

/-- Everything `exec` can do: V3 while busy, a V5 mark where an operand is out of its domain, completion otherwise. -/
theorem exec_cases (i : Instr) (s : State) :
    (s.busy = true ∧ exec i s = .fault (.reentry (record (.reentry (encode i)) s))) ∨
    (s.busy = false ∧ i.wellFormed = false ∧ ∃ addr : Byte, exec i s = .next (record (.addressOutOfRange addr) s)) ∨
    (s.busy = false ∧ i.wellFormed = true ∧ exec i s = .next (completed i s)) := by
  cases i
  case csAssert =>
    obtain h | ⟨h1, h2⟩ := performCommand_cases (encode .csAssert) csAssertBody s
    · exact .inl h
    · exact .inr (.inr ⟨h1, rfl, h2⟩)
  case csRelease =>
    obtain h | ⟨h1, h2⟩ := performCommand_cases (encode .csRelease) csReleaseBody s
    · exact .inl h
    · exact .inr (.inr ⟨h1, rfl, h2⟩)
  case shiftOut b =>
    obtain h | ⟨h1, h2⟩ := performCommand_cases (encode (.shiftOut b)) shiftOutBody s
    · exact .inl h
    · exact .inr (.inr ⟨h1, rfl, h2⟩)
  case shiftIn =>
    obtain h | ⟨h1, h2⟩ := performCommand_cases (encode .shiftIn) shiftInBody s
    · exact .inl h
    · exact .inr (.inr ⟨h1, rfl, h2⟩)
  case readReg addr =>
    obtain h | ⟨h1, h2, h3⟩ | ⟨h1, h2, h3⟩ := performRegisterCommand_cases (.readReg addr) addr readRegBody s
    · exact .inl h
    · exact .inr (.inl ⟨h1, by simp [Instr.wellFormed, addrInRange, Config.addrW]; omega, _, h3⟩)
    · exact .inr (.inr ⟨h1, by simp [Instr.wellFormed, addrInRange_iff, h2], h3⟩)
  case writeReg addr v =>
    obtain h | ⟨h1, h2, h3⟩ | ⟨h1, h2, h3⟩ := performRegisterCommand_cases (.writeReg addr v) addr writeRegBody s
    · exact .inl h
    · exact .inr (.inl ⟨h1, by simp [Instr.wellFormed, addrInRange, Config.addrW]; omega, _, h3⟩)
    · exact .inr (.inr ⟨h1, by simp [Instr.wellFormed, addrInRange_iff, h2], h3⟩)
  case readBurst addr =>
    obtain h | ⟨h1, h2, h3⟩ | ⟨h1, h2, h3⟩ := performRegisterCommand_cases (.readBurst addr) addr readBurstBody s
    · exact .inl h
    · exact .inr (.inl ⟨h1, by simp [Instr.wellFormed, addrInRange, Config.addrW]; omega, _, h3⟩)
    · exact .inr (.inr ⟨h1, by simp [Instr.wellFormed, addrInRange_iff, h2], h3⟩)

/-- A well-formed command of an idle block completes. -/
theorem exec_completes {i : Instr} {s : State} (hb : s.busy = false) (hi : i.wellFormed = true) :
    exec i s = .next (completed i s) := by
  obtain ⟨h, -⟩ | ⟨-, h, -⟩ | ⟨-, -, h⟩ := exec_cases i s
  · simp [hb] at h
  · simp [hi] at h
  · exact h

/-- Everything a host action can do to an idle block. -/
theorem present_next {x : HostAction} {s t : State} (hb : s.busy = false) (h : present x s = .next t) :
    t = s ∨ (∃ y, t = record y s) ∨ (∃ r, t = hostRead r s) ∨ t = hostReadBusy s ∨
      ∃ i, i.wellFormed = true ∧ t = completed i s := by
  have viaExec : ∀ i, exec i s = .next t → (∃ y, t = record y s) ∨ ∃ i, i.wellFormed = true ∧ t = completed i s := by
    intro i hi
    obtain ⟨h1, -⟩ | ⟨-, -, addr, h2⟩ | ⟨-, h1, h2⟩ := exec_cases i s
    · simp [hb] at h1
    · rw [h2] at hi; simp only [Host.Outcome.next.injEq] at hi; exact .inl ⟨_, hi.symm⟩
    · rw [h2] at hi; simp only [Host.Outcome.next.injEq] at hi; exact .inr ⟨i, h1, hi.symm⟩
  cases x with
  | word cw =>
    simp only [present, presentWord, hb, Bool.false_eq_true, if_false] at h
    split at h
    · obtain h | h := viaExec _ h
      · exact .inr (.inl h)
      · exact .inr (.inr (.inr (.inr h)))
    · simp only [Host.Outcome.next.injEq] at h; exact .inr (.inl ⟨_, h.symm⟩)
  | call i =>
    obtain h | h := viaExec i h
    · exact .inr (.inl h)
    · exact .inr (.inr (.inr (.inr h)))
  | waitUs n => simp only [present, Host.Outcome.next.injEq] at h; exact .inl h.symm
  | waitMs n => simp only [present, Host.Outcome.next.injEq] at h; exact .inl h.symm
  | read r => simp only [present, Host.Outcome.next.injEq] at h; exact .inr (.inr (.inl ⟨r, h.symm⟩))
  | readBusy => simp only [present, Host.Outcome.next.injEq] at h; exact .inr (.inr (.inr (.inl h.symm)))
  | intruder cw => simp [present, stopReentry] at h

/-- Everything a step that answers a next state can have done: a position of the command in progress (or nothing, at rest
with nothing presented), or the host's next action taken from the inbox. -/
theorem step_cases {s t : State} (h : step s = .next t) :
    t = tick s ∨
      (s.busy = false ∧ ∃ rest, t = { s with inbox := rest } ∨ (∃ y, t = record y { s with inbox := rest }) ∨
        (∃ r, t = hostRead r { s with inbox := rest }) ∨ t = hostReadBusy { s with inbox := rest } ∨
        ∃ i, i.wellFormed = true ∧ t = completed i { s with inbox := rest }) := by
  unfold step advance at h
  split at h
  · simp only [Host.Outcome.next.injEq] at h; exact .inl h.symm
  · simp [stopReentry] at h
  · next x rest _ _ =>
    split at h
    · simp only [Host.Outcome.next.injEq] at h; exact .inl h.symm
    · next hb =>
      have hb' : s.busy = false := by simpa using hb
      exact .inr ⟨hb', rest, present_next (s := { s with inbox := rest }) hb' h⟩

end Sys2Proof.Machine
end

