-- ==== Sys2Proof/Laws/Trace.lean ====
section
/-! SUPPORT. What a completed command and a step append to the pin trace, and that the pins follow it: one lemma for the
trace of each command, one for whatever a step does. -/

namespace Sys2Proof.Machine

/-- The events a well-formed command appends, with the target's answers where bytes come in. -/
def commandEvents : Instr → State → List Event
  | .csAssert, _ => [.write .ncs false]
  | .csRelease, _ => [.write .ncs true]
  | .shiftOut b, _ => outByteEvents b
  | .shiftIn, s => inByteEvents (s.answerByte 0)
  | .readReg addr, s => readFrame (addr.setWidth Config.addrW) (s.answerByte 0)
  | .writeReg addr v, _ => writeFrame (addr.setWidth Config.addrW) v
  | .readBurst addr, s => burstFrame (addr.setWidth Config.addrW) s.answerBurst

theorem completed_trace (i : Instr) (s : State) : (completed i s).trace = s.trace ++ commandEvents i s := by
  have hb : ∀ t : State, t.sdi = s.sdi → t.sampled = s.sampled → t.answerBurst = s.answerBurst := by
    intro t h1 h2; simp [State.answerBurst, answerByte_eq, h1, h2]
  cases i
  case csAssert => simp [completed, bodyOf, csAssertBody, acceptCommand_eq, commandEvents]
  case csRelease => simp [completed, bodyOf, csReleaseBody, acceptCommand_eq, commandEvents]
  case shiftOut => simp [completed, bodyOf, shiftOutBody, acceptCommand_eq, sendByte_eq, encode, commandEvents]
  case shiftIn =>
    simp [completed, bodyOf, shiftInBody, acceptCommand_eq, receiveByte_eq, commandEvents, answerByte_eq]
  case readReg =>
    simp [completed, bodyOf, readRegBody, acceptCommand_eq, sendByte_eq, receiveByte_eq, encode, commandEvents, readFrame,
      answerByte_eq, delay, emit]
  case writeReg =>
    simp [completed, bodyOf, writeRegBody, acceptCommand_eq, sendByte_eq, encode, commandEvents, writeFrame, delay, emit]
  case readBurst =>
    simp [completed, bodyOf, readBurstBody, acceptCommand_eq, sendByte_eq, receiveBurst_eq, encode, commandEvents,
      burstFrame, delay, emit, pinMode]
    simp only [hb]

/-- The pins after an out byte: the clock high, SDO at the byte's last bit. -/
theorem afterAll_outByte (w : Wire) (x : Byte) :
    w.afterAll (outByteEvents x) = { w with sclk := true, sdo := bitOf x 0 } := by
  simp [outByteEvents, outCellEvents, bitsDown_eq, Wire.afterAll, Wire.after]

/-- The pins after an in byte: the clock high. -/
theorem afterAll_inByte (w : Wire) (x : Byte) : w.afterAll (inByteEvents x) = { w with sclk := true } := by
  simp [inByteEvents, inCellEvents, bitsDown_eq, Wire.afterAll, Wire.after]

theorem countEvents_outByte (x : Byte) : countEvents (outByteEvents x) = ⟨8, 8, 8, 0, 0, 0, 16⟩ := by
  simp [outByteEvents, outCellEvents, countEvents, EventCounts.ofEvent, EventCounts.add, bitsDown_eq]

theorem countEvents_inByte (x : Byte) : countEvents (inByteEvents x) = ⟨8, 8, 0, 8, 0, 0, 1⟩ := by
  simp [inByteEvents, inCellEvents, countEvents, EventCounts.ofEvent, EventCounts.add, bitsDown_eq]

theorem minDuration_outByte (τ : Timing) (x : Byte) :
    minDuration τ (outByteEvents x) = 8 * (τ.tOutLow + τ.tOutHigh) := by
  simp [outByteEvents, outCellEvents, minDuration, Event.minMicros, DelayParam.micros, bitsDown_eq]
  omega

theorem minDuration_inByte (τ : Timing) (x : Byte) : minDuration τ (inByteEvents x) = τ.tInSettle := by
  simp [inByteEvents, inCellEvents, minDuration, Event.minMicros, DelayParam.micros, bitsDown_eq]

/-- The bits a target takes from an out byte: the byte, bit 7 first (R80). -/
theorem risingBits_outByte (w : Wire) (x : Byte) (hd : w.sdoDir = .output) :
    risingBits w (outByteEvents x) = [7, 6, 5, 4, 3, 2, 1, 0].map (fun i => some (bitOf x i)) := by
  simp [outByteEvents, outCellEvents, bitsDown_eq, risingBits, Wire.after, Wire.dataOut, hd]

/-- During an in byte the data-out pin stays as it was (R91, R135). -/
theorem risingBits_inByte (w : Wire) (x : Byte) : risingBits w (inByteEvents x) = List.replicate 8 w.dataOut := by
  simp [inByteEvents, inCellEvents, bitsDown_eq, risingBits, Wire.after, Wire.dataOut, List.replicate]

theorem afterRise_outByte (x : Byte) (es : List Event) :
    afterRise 8 (outByteEvents x ++ es) = .delay .tOutHigh :: es := by
  simp [outByteEvents, outCellEvents, bitsDown_eq, afterRise]

theorem untilFall_outByte (x : Byte) (es : List Event) : untilFall (outByteEvents x ++ es) = [] := by
  simp [outByteEvents, outCellEvents, bitsDown_eq, untilFall]

theorem untilFall_inByte (x : Byte) (es : List Event) : untilFall (inByteEvents x ++ es) = [.delay .tInSettle] := by
  simp [inByteEvents, inCellEvents, bitsDown_eq, untilFall]

/-- An out byte holds eight rising writes: later ones are counted after it. -/
theorem afterRise_skip_outByte (n : Nat) (x : Byte) (es : List Event) :
    afterRise (8 + (n + 1)) (outByteEvents x ++ es) = afterRise (n + 1) es := by
  rw [Nat.add_comm]
  simp [outByteEvents, outCellEvents, bitsDown_eq, afterRise]

/-- An in byte holds eight rising writes: later ones are counted after it. -/
theorem afterRise_skip_inByte (n : Nat) (x : Byte) (es : List Event) :
    afterRise (8 + (n + 1)) (inByteEvents x ++ es) = afterRise (n + 1) es := by
  rw [Nat.add_comm]
  simp [inByteEvents, inCellEvents, bitsDown_eq, afterRise]

/-- After the rising write of cell `n` of an in byte, before the next falling write: the sample, and after the last cell
whatever follows the byte (R112, R196). -/
theorem untilFall_afterRise_inByte (n : Fin Config.dataW) (x : Byte) (es : List Event) :
    untilFall (afterRise (n.val + 1) (inByteEvents x ++ es)) =
      .sample (bitOf x (7 - n)) :: (if n = 7 then untilFall es else []) := by
  fin_cases n <;> rfl

/-- The same inside a run of in bytes: after cell `n` of byte `q` comes its sample, and after its last cell what follows the
byte. -/
theorem untilFall_afterRise_inBytes (d : Fin Config.burstLen → Byte) (es : List Event) (ks : List (Fin Config.burstLen))
    (q : Nat) (n : Fin Config.dataW) (hq : q < ks.length) :
    ∃ x, untilFall (afterRise (8 * q + n.val + 1) (ks.flatMap (fun k => inByteEvents (d k)) ++ es)) =
      .sample x ::
        (if n = 7 then untilFall ((ks.drop (q + 1)).flatMap (fun k => inByteEvents (d k)) ++ es) else []) := by
  induction ks generalizing q with
  | nil => simp at hq
  | cons k ks ih =>
    cases q with
    | zero =>
      exact ⟨_, by simpa using untilFall_afterRise_inByte n (d k) (ks.flatMap (fun k => inByteEvents (d k)) ++ es)⟩
    | succ q =>
      obtain ⟨x, hx⟩ := ih q (by simpa using hq)
      refine ⟨x, ?_⟩
      rw [show 8 * (q + 1) + n.val + 1 = 8 + (8 * q + n.val + 1) by omega, List.flatMap_cons, List.append_assoc,
        afterRise_skip_inByte, hx]
      rfl

theorem quiet_outByte (w : Wire) (x : Byte) : sdoQuietWhileHigh w (outByteEvents x) = true := by
  simp [outByteEvents, outCellEvents, bitsDown_eq, sdoQuietWhileHigh, Event.quiet, Wire.after]

theorem quiet_inByte (w : Wire) (x : Byte) : sdoQuietWhileHigh w (inByteEvents x) = true := by
  simp [inByteEvents, inCellEvents, bitsDown_eq, sdoQuietWhileHigh, Event.quiet]

theorem afterAll_cons (w : Wire) (e : Event) (es : List Event) : w.afterAll (e :: es) = (w.after e).afterAll es := rfl

theorem afterAll_nil (w : Wire) : w.afterAll [] = w := rfl

/-- The pins after a burst's data phase: the clock high. -/
theorem afterAll_inBytes (w : Wire) (f : Fin Config.burstLen → Byte) :
    w.afterAll (bytesUp.flatMap (fun k => inByteEvents (f k))) = { w with sclk := true } := by
  simp [bytesUp_eq, afterAll_append, afterAll_inByte]

theorem quiet_cons (w : Wire) (e : Event) (es : List Event) :
    sdoQuietWhileHigh w (e :: es) = (e.quiet w && sdoQuietWhileHigh (w.after e) es) := rfl

/-- No command writes SDO while the clock is high, whatever the pins were before (R195). -/
theorem quiet_command (i : Instr) (s : State) (w : Wire) : sdoQuietWhileHigh w (commandEvents i s) = true := by
  cases i <;>
    simp [commandEvents, readFrame, writeFrame, burstFrame, sdoQuiet_append, quiet_cons, quiet_outByte, quiet_inByte,
      Event.quiet, sdoQuietWhileHigh, bytesUp_eq]

/-- After a command the pins are what its events say. -/
theorem wire_command (i : Instr) (s : State) : (completed i s).wire = s.wire.afterAll (commandEvents i s) := by
  cases i <;>
    simp [State.wire, completed, bodyOf, csAssertBody, csReleaseBody, shiftOutBody, shiftInBody, readRegBody, writeRegBody,
      readBurstBody, acceptCommand_eq, sendByte_eq, receiveByte_eq, receiveBurst_eq, commandEvents, readFrame, writeFrame,
      burstFrame, afterAll_append, afterAll_cons, afterAll_outByte, afterAll_inByte, encode, delay, emit, pinMode,
      afterAll_nil, afterAll_inBytes, Wire.after]

/-- `t` came from `s` by events that the pins follow and that never write SDO while the clock is high. -/
def Extends (s t : State) : Prop :=
  ∃ es, t.trace = s.trace ++ es ∧ t.wire = s.wire.afterAll es ∧ ∀ w : Wire, sdoQuietWhileHigh w es = true

theorem Extends.of_eq {s t : State} (h1 : t.trace = s.trace) (h2 : t.wire = s.wire) : Extends s t :=
  ⟨[], by simp [h1], by simp [h2, afterAll_nil], fun _ => rfl⟩

theorem completed_extends (i : Instr) (s : State) : Extends s (completed i s) :=
  ⟨commandEvents i s, completed_trace i s, wire_command i s, quiet_command i s⟩

/-- What a position leaves alone. -/
theorem positionEvents_frame (s : State) :
    (positionEvents s).op = s.op ∧ (positionEvents s).seq = s.seq ∧ (positionEvents s).viol = s.viol ∧
    (positionEvents s).pins = s.pins ∧ (positionEvents s).ncsDir = s.ncsDir ∧ (positionEvents s).sclkDir = s.sclkDir ∧
    (positionEvents s).sdiDir = s.sdiDir ∧ (positionEvents s).returned = s.returned ∧
    (positionEvents s).inbox = s.inbox := by
  unfold positionEvents
  split <;> try split
  all_goals simp [tickOut_eq, tickIn_eq]

theorem positionEvents_extends (s : State) : Extends s (positionEvents s) := by
  have out (x : Byte) : Extends s (tickOut x s) :=
    ⟨outCellEvents (bitOf (if s.seq.i = topBit then x else s.txsr) s.seq.i), by simp [tickOut_eq],
      by simp [tickOut_eq, State.wire, outCellEvents, Wire.afterAll, Wire.after],
      by simp [outCellEvents, sdoQuietWhileHigh, Event.quiet, Wire.after]⟩
  unfold positionEvents
  split
  · exact .of_eq rfl rfl
  · split
    · exact ⟨[.delay .tStart, .mode .sdo .output], by simp [delay, emit, pinMode],
        by simp [State.wire, afterAll_cons, afterAll_nil, Wire.after], fun _ => rfl⟩
    · exact ⟨[.delay .tStart], by simp [delay, emit],
        by simp [State.wire, afterAll_cons, afterAll_nil, Wire.after], fun _ => rfl⟩
  · exact out _
  · split
    · exact ⟨[.mode .sdo .input, .delay .tPhase], by simp [delay, emit, pinMode],
        by simp [State.wire, afterAll_cons, afterAll_nil, Wire.after], fun _ => rfl⟩
    · exact ⟨[.delay .tPhase], by simp [delay, emit],
        by simp [State.wire, afterAll_cons, afterAll_nil, Wire.after], fun _ => rfl⟩
  · exact out _
  · refine ⟨(if s.seq.i = topBit then [.delay .tInSettle] else []) ++ inCellEvents (s.answer 0)
      ++ (if s.seq.i = 0 ∧ s.op = opReadBurst ∧ s.seq.k = lastByte then [.mode .sdo .output] else []),
      by simp [tickIn_eq], ?_, ?_⟩
    · simp only [tickIn_eq, State.wire]
      split <;> split <;> simp [inCellEvents, afterAll_cons, afterAll_nil, Wire.after]
    · intro w
      split <;> split <;> simp [inCellEvents, sdoQuietWhileHigh, Event.quiet]
  · split
    · exact ⟨[.write .ncs true], by simp, by simp [State.wire, afterAll_cons, afterAll_nil, Wire.after], fun _ => rfl⟩
    · exact ⟨[.write .ncs false], by simp, by simp [State.wire, afterAll_cons, afterAll_nil, Wire.after], fun _ => rfl⟩

/-- Whatever a step does, the pins follow the events it appends. -/
theorem step_extends {s t : State} (h : step s = .next t) : Extends s t := by
  obtain rfl | ⟨-, rest, rfl | ⟨y, rfl⟩ | ⟨r, rfl⟩ | rfl | ⟨i, -, rfl⟩⟩ := step_cases h
  · unfold tick
    split
    · obtain ⟨es, h1, h2, h3⟩ := positionEvents_extends s
      refine ⟨es, ?_, ?_, h3⟩ <;> simp only <;> split
      · simp [h1]
      · simp [h1]
      · simpa [State.wire] using h2
      · simpa [State.wire] using h2
    · exact .of_eq rfl rfl
  · exact .of_eq rfl rfl
  · exact .of_eq (by simp) (by simp [State.wire])
  · refine .of_eq ?_ ?_ <;> unfold hostRead <;> simp only [State.wire] <;> split <;> simp
  · exact .of_eq rfl rfl
  · exact completed_extends i { s with inbox := rest }

end Sys2Proof.Machine
end

