-- ==== Sys2Proof/Laws/Host.lean ====
section
/-! SUPPORT. What a host sequence can rely on: the fields a completed command leaves, that no command reads what the host
does next, and that a list of host actions may be cut anywhere. -/

namespace Sys2Proof.Machine

theorem completed_busy (i : Instr) (s : State) : (completed i s).busy = false := by
  simp [completed, State.busy, completeCommand, Seq.atRest]

theorem completed_ncs (i : Instr) (s : State) :
    (completed i s).ncs = if i = .csAssert then false else if i = .csRelease then true else s.ncs := by
  cases i <;>
    simp [completed, bodyOf, csAssertBody, csReleaseBody, shiftOutBody, shiftInBody, readRegBody, writeRegBody,
      readBurstBody, acceptCommand_eq, sendByte_eq, receiveByte_eq, receiveBurst_eq]

theorem completed_txnDone (i : Instr) (s : State) :
    (completed i s).txnDone = if i = .csRelease then false else s.txnDone || isRegisterOp (opField (encode i)) := by
  cases i <;>
    simp [completed, bodyOf, csAssertBody, csReleaseBody, shiftOutBody, shiftInBody, readRegBody, writeRegBody,
      readBurstBody, acceptCommand_eq, sendByte_eq, receiveByte_eq, receiveBurst_eq]
  decide

theorem completed_viol (i : Instr) (s : State) :
    (completed i s).viol = if isWireOp (opField (encode i)) then s.violAfterEntry (encode i) else s.viol := by
  cases i <;>
    simp [completed, bodyOf, csAssertBody, csReleaseBody, shiftOutBody, shiftInBody, readRegBody, writeRegBody,
      readBurstBody, acceptCommand_eq, sendByte_eq, receiveByte_eq, receiveBurst_eq, checkEntry_viol]

theorem completed_inbox (i : Instr) (s : State) : (completed i s).inbox = s.inbox := by
  cases i <;>
    simp [completed, bodyOf, csAssertBody, csReleaseBody, shiftOutBody, shiftInBody, readRegBody, writeRegBody,
      readBurstBody, acceptCommand_eq, sendByte_eq, receiveByte_eq, receiveBurst_eq]

theorem record_setInbox (x : Violation) (s : State) (xs : List HostAction) :
    record x { s with inbox := xs } = { record x s with inbox := xs } := by
  unfold record
  by_cases h : x ∈ s.viol <;> simp [h]

theorem checkEntry_setInbox (cw : CmdWord) (s : State) (xs : List HostAction) :
    checkEntry cw { s with inbox := xs } = { checkEntry cw s with inbox := xs } := by
  unfold checkEntry entryViolation record
  simp only
  by_cases h1 : s.ncs = true
  · by_cases h2 : Violation.ncsHighOnEntry cw ∈ s.viol <;> simp [h1, h2]
  · by_cases h3 : (Config.csStrict && s.txnDone) = true
    · by_cases h2 : Violation.transactionNotDelimited cw ∈ s.viol <;> simp [h1, h2, h3]
    · simp [h1, h3]

/-- A command does not read what the host does next. -/
theorem completed_setInbox (i : Instr) (s : State) (xs : List HostAction) :
    completed i { s with inbox := xs } = { completed i s with inbox := xs } := by
  cases i <;>
    simp [completed, bodyOf, csAssertBody, csReleaseBody, shiftOutBody, shiftInBody, readRegBody, writeRegBody,
      readBurstBody, acceptCommand_eq, sendByte_eq, receiveByte_eq, receiveBurst_eq, checkEntry_setInbox, completeCommand,
      setRx, delay, emit, pinMode, pinWrite, answerByte_eq, State.answerBurst, resultOf]

/-- A list of host actions may be cut anywhere. -/
theorem presentAll_append (xs ys : List HostAction) (s : State) :
    presentAll (xs ++ ys) s =
      match presentAll xs s with
      | .next t => presentAll ys t
      | .fault f => .fault f
      | .refused r => .refused r := by
  induction xs generalizing s with
  | nil => rfl
  | cons x xs ih =>
    simp only [List.cons_append, presentAll]
    cases present x s <;> simp [ih]

end Sys2Proof.Machine
end

