-- ==== Sys2Proof/Laws/PerInstr.lean ====
section
/-! SUPPORT. Per-instruction statements about the command as syntax: the word of a well-formed command matches a row of
the opcode table that carries its mnemonic (spec/30_encoding.md R88). -/

namespace Sys2Proof.Laws.EncodingForm

/-- The encoded command matches its own row of the opcode table. -/
def Statement (i : Instr) : Prop :=
  i.wellFormed = true → ∃ r ∈ opcodeTable, r.mnemonic = i.mnemonic ∧ r.fits (encode i) = true

/-- A word matches a row given by a mask and a pattern packed field by field exactly when its fields do. -/
theorem fits_packWord (name : String) (mo po op : BitVec 3) (ma pa addr : Addr) (md pd data : Byte)
    (ho : op &&& mo = po) (ha : addr &&& ma = pa) (hd : data &&& md = pd) :
    OpcodeRow.fits ⟨name, packWord mo ma md, packWord po pa pd⟩ (packWord op addr data) = true := by
  simp [OpcodeRow.fits, packWord_and, ho, ha, hd]

theorem csAssert : Statement .csAssert := fun _ => ⟨_, .head _, rfl, rfl⟩

theorem csRelease : Statement .csRelease := fun _ => ⟨_, .tail _ (.head _), rfl, rfl⟩

theorem shiftOut (b : Byte) : Statement (.shiftOut b) := fun _ =>
  ⟨_, .tail _ (.tail _ (.head _)), rfl,
    fits_packWord "SHIFT_OUT" 7#3 3#3 opShiftOut 0x7F#7 0#7 0#7 0#8 0#8 b (by decide) (by decide) (by simp)⟩

theorem shiftIn : Statement .shiftIn := fun _ => ⟨_, .tail _ (.tail _ (.tail _ (.head _))), rfl, rfl⟩

theorem readReg (addr : Byte) : Statement (.readReg addr) := fun _ =>
  ⟨_, .tail _ (.tail _ (.tail _ (.tail _ (.head _)))), rfl,
    fits_packWord "READ_REG" 7#3 5#3 opReadReg 0#7 0#7 (addr.setWidth Config.addrW) 0xFF#8 0#8 0#8 (by decide) (by simp) (by decide)⟩

theorem writeReg (addr v : Byte) : Statement (.writeReg addr v) := fun _ =>
  ⟨_, .tail _ (.tail _ (.tail _ (.tail _ (.tail _ (.head _))))), rfl,
    fits_packWord "WRITE_REG" 7#3 6#3 opWriteReg 0#7 0#7 (addr.setWidth Config.addrW) 0#8 0#8 v (by decide) (by simp) (by simp)⟩

theorem readBurst (addr : Byte) : Statement (.readBurst addr) := fun _ =>
  ⟨_, .tail _ (.tail _ (.tail _ (.tail _ (.tail _ (.tail _ (.head _)))))), rfl,
    fits_packWord "READ_BURST" 7#3 7#3 opReadBurst 0#7 0#7 (addr.setWidth Config.addrW) 0xFF#8 0#8 0#8
      (by decide) (by simp) (by decide)⟩

end Sys2Proof.Laws.EncodingForm
end

