-- ==== Sys2Proof/Tests/Slice0.lean ====
section
/-! SUPPORT. Small tests. Every expected result is taken from spec/95_test_vectors.md (its vector's name stands in the test's
comment) or worked out by hand from a rule. The cells are written out here again, not taken from the model. -/

namespace Sys2Proof.Tests

open Sys2Proof.Machine

/-! ### Helpers -/

/-- The start state of T1 to T5: on the bus, four given identifiers, and the samples a test supplies. -/
def onBus (samples : List Level) : State :=
  { State.reset with pins := ⟨10, 11, 12, 13⟩, ncs := false, sdi := samples }

/-- The state after a command, where it completes. -/
def after (i : Instr) (s : State) : Option State :=
  match exec i s with
  | .next t => some t
  | .fault _ => none
  | .refused _ => none

/-- `O(x)` of spec/95_test_vectors.md. -/
def cellOut (x : Bool) : List Event :=
  [.write .sclk false, .write .sdo x, .delay .tOutLow, .write .sclk true, .delay .tOutHigh]

/-- `I(x)` of spec/95_test_vectors.md. -/
def cellIn (x : Bool) : List Event := [.write .sclk false, .write .sclk true, .sample x]

/-- The eight bits of a test byte, written by hand, as cells. -/
def outs (bits : List Bool) : List Event := bits.flatMap cellOut
def ins (bits : List Bool) : List Event := .delay .tInSettle :: bits.flatMap cellIn

/-- `0x80` and the other bytes of T5, bit by bit. -/
def burstBits : List (List Bool) :=
  [[true, false, false, false, false, false, false, false], [false, false, false, true, false, false, true, false],
   [false, false, true, true, false, true, false, false], [true, false, true, false, true, false, true, true]]
  ++ [[false, true, false, true, false, false, false, false], [false, false, false, false, false, false, false, true],
   [true, true, true, true, false, true, false, false], [false, true, true, true, true, true, true, true]]

/-! ### Well-formedness: an ill-formed term for each check -/

theorem test_wf_read_refuses_wide : (Instr.readReg 0x80#8).wellFormed = false := by decide
theorem test_wf_write_refuses_wide : (Instr.writeReg 0x80#8 0x00#8).wellFormed = false := by decide
theorem test_wf_burst_refuses_wide : (Instr.readBurst 0x80#8).wellFormed = false := by decide
theorem test_wf_accepts_top :
    (Instr.readReg 0x7F#8).wellFormed = true ∧ (Instr.writeReg 0x7F#8 0xFF#8).wellFormed = true ∧
    (Instr.readBurst 0x7F#8).wellFormed = true ∧ (Instr.shiftOut 0xFF#8).wellFormed = true := by decide

/-! ### Decoding: words written out bit by bit (2.5 of spec/95_test_vectors.md) -/

theorem test_decode_csAssert : decode 0b001000000000000000#18 = .ok .csAssert := by decide
theorem test_decode_csRelease : decode 0b010000000000000000#18 = .ok .csRelease := by decide
theorem test_decode_shiftOut : decode 0b011000000010100101#18 = .ok (.shiftOut 0xA5#8) := by decide
theorem test_decode_shiftIn : decode 0b100000000000000000#18 = .ok .shiftIn := by decide
theorem test_decode_readReg :
    decode 0b101000001000000000#18 = .ok (.readReg 0x02#8) ∧
    decode 0b101111111100000000#18 = .ok (.readReg 0x7F#8) := by decide
theorem test_decode_writeReg :
    decode 0b110011101001011010#18 = .ok (.writeReg 0x3A#8 0x5A#8) ∧
    decode 0b110001111110111111#18 = .ok (.writeReg 0x1F#8 0xBF#8) ∧
    decode 0b110111111111111111#18 = .ok (.writeReg 0x7F#8 0xFF#8) := by decide
theorem test_decode_readBurst : decode 0b111100001000000000#18 = .ok (.readBurst 0x42#8) := by decide
theorem test_decode_refuses :
    decode 0x00000#18 = .error .reservedOp ∧ decode 0x07FFF#18 = .error .reservedOp ∧
    decode 0x08001#18 = .error .unusedDataField ∧ decode 0x10100#18 = .error .unusedAddrField ∧
    decode 0x18100#18 = .error .unusedAddrField ∧ decode 0x20001#18 = .error .unusedDataField ∧
    decode 0x28201#18 = .error .unusedDataField ∧ decode 0x3C2FF#18 = .error .unusedDataField := by decide
theorem test_encode_words :
    encode (.shiftOut 0xA5#8) = 0x180A5#18 ∧ encode (.readReg 0x02#8) = 0x28200#18 ∧
    encode (.writeReg 0x1A#8 0x40#8) = 0x31A40#18 ∧ encode (.readBurst 0x42#8) = 0x3C200#18 := by decide
theorem test_decodeTableWord :
    decodeTableWord 18 0x33A5A = some (.writeReg 0x3A#8 0x5A#8) ∧ decodeTableWord 24 0x3C200 = some (.readBurst 0x42#8) ∧
    decodeTableWord 24 0x28201 = none ∧ decodeTableWord 24 0x48000 = none := by decide

/-! ### Address bytes (A1, A3) -/

theorem test_address_bytes :
    addressByte false 0x00#7 = 0x00#8 ∧ addressByte true 0x00#7 = 0x80#8 ∧ addressByte false 0x7F#7 = 0x7F#8 ∧
    addressByte true 0x7F#7 = 0xFF#8 ∧ addressByte false 0x40#7 = 0x40#8 ∧ addressByte true 0x40#7 = 0xC0#8 ∧
    addressByte true 0x3A#7 = 0xBA#8 ∧ addressByte true 0x1F#7 = 0x9F#8 := by decide

/-- R51 and A1: the listed addresses with their write bytes, in the table's order. -/
theorem test_registerMap_bytes :
    Config.registerMap.map (fun r => (r.addr, addressByte true (r.addr.setWidth 7))) =
      [(0x00#8, 0x80#8), (0x01#8, 0x81#8), (0x02#8, 0x82#8), (0x03#8, 0x83#8), (0x04#8, 0x84#8), (0x05#8, 0x85#8),
       (0x06#8, 0x86#8), (0x12#8, 0x92#8), (0x1A#8, 0x9A#8), (0x1C#8, 0x9C#8)]
      ++ [(0x1D#8, 0x9D#8), (0x1F#8, 0x9F#8), (0x35#8, 0xB5#8), (0x3A#8, 0xBA#8), (0x3C#8, 0xBC#8), (0x3D#8, 0xBD#8),
       (0x3E#8, 0xBE#8), (0x3F#8, 0xBF#8), (0x42#8, 0xC2#8)] := by decide

/-- R188: IdentityVerify reads 0x00, 0x3F, 0x01, 0x3E, in that order. -/
theorem test_identity_order : Config.identityRegs = [0x00#8, 0x3F#8, 0x01#8, 0x3E#8] := by decide

/-! ### One command each -/

/-- T6: CS_ASSERT from reset writes one event and moves neither the clock nor SDO. -/
theorem test_csAssert :
    (after .csAssert State.reset).map (fun t => (t.ncs, t.sclk, t.sdo, t.trace)) =
      some (false, true, false, [.write .ncs false]) := by decide

/-- T6: CS_RELEASE ends a transaction and clears `G_TXN_DONE`. -/
theorem test_csRelease :
    (after .csRelease { onBus [] with txnDone := true }).map (fun t => (t.ncs, t.txnDone, t.trace, t.viol)) =
      some (true, false, [.write .ncs true], []) := by decide

/-- T1: SHIFT_OUT 0xA5. -/
theorem test_shiftOut_trace :
    (after (.shiftOut 0xA5#8) (onBus [])).map (fun t => t.trace) =
      some (outs [true, false, true, false, false, true, false, true]) := by decide
theorem test_shiftOut_end :
    (after (.shiftOut 0xA5#8) (onBus [])).map (fun t => (t.txsr, t.sclk, t.sdo, t.rxWritten, t.txnDone)) =
      some (0xA5#8, true, true, false, false) := by decide

/-- T2: SHIFT_IN with samples 0, 1, 0, 1, 1, 0, 1, 0. -/
theorem test_shiftIn_trace :
    (after .shiftIn (onBus [false, true, false, true, true, false, true, false])).map (fun t => t.trace) =
      some (ins [false, true, false, true, true, false, true, false]) := by decide
theorem test_shiftIn_value :
    (after .shiftIn (onBus [false, true, false, true, true, false, true, false])).map
      (fun t => (t.rx, t.rxWritten, t.sdo, t.returned)) = some (0x5A#8, true, false, [.byte 0x5A#8]) := by decide

/-- T3: READ_REG 0x02 with samples 1, 0, 0, 0, 0, 0, 0, 0. -/
theorem test_readReg_trace :
    (after (.readReg 0x02#8) (onBus [true, false, false, false, false, false, false, false])).map (fun t => t.trace) =
      some (.delay .tStart :: outs [false, false, false, false, false, false, true, false]
        ++ .delay .tPhase :: ins [true, false, false, false, false, false, false, false]) := by decide
theorem test_readReg_end :
    (after (.readReg 0x02#8) (onBus [true, false, false, false, false, false, false, false])).map
      (fun t => (t.rx, t.txsr, t.sclk, t.sdo, t.sdoDir, t.txnDone)) =
      some (0x80#8, 0x02#8, true, false, .output, true) := by decide

/-- T4: WRITE_REG 0x3A, 0x5A. -/
theorem test_writeReg_trace :
    (after (.writeReg 0x3A#8 0x5A#8) (onBus [])).map (fun t => t.trace) =
      some (.delay .tStart :: outs [true, false, true, true, true, false, true, false]
        ++ .delay .tPhase :: outs [false, true, false, true, true, false, true, false]) := by decide +kernel
theorem test_writeReg_end :
    (after (.writeReg 0x3A#8 0x5A#8) (onBus [])).map (fun t => (t.txsr, t.sdo, t.rxWritten, t.txnDone, t.sampled)) =
      some (0x5A#8, false, false, true, 0) := by decide

/-- T5: READ_BURST 0x42. -/
theorem test_readBurst_bytes :
    (after (.readBurst 0x42#8) (onBus burstBits.flatten)).map (fun t => t.b) =
      some #v[0x80#8, 0x12#8, 0x34#8, 0xAB#8, 0x50#8, 0x01#8, 0xF4#8, 0x7F#8] := by decide +kernel
theorem test_readBurst_trace :
    (after (.readBurst 0x42#8) (onBus burstBits.flatten)).map (fun t => t.trace) =
      some (.delay .tStart :: .mode .sdo .output :: outs [false, true, false, false, false, false, true, false]
        ++ .mode .sdo .input :: .delay .tPhase :: burstBits.flatMap ins ++ [.mode .sdo .output]) := by decide +kernel

/-! ### Violations (2.6 of spec/95_test_vectors.md) -/

/-- X1 and X5: V1, and the command runs all the same. -/
theorem test_X5_marks_V1 :
    (after (.shiftOut 0x02#8) State.reset).map (fun t => (t.viol, t.trace.length)) =
      some ([.ncsHighOnEntry 0x18002#18], 40) := by decide

/-- X2: a second register command under one assertion is V2. -/
theorem test_X2_marks_V2 :
    (after (.readReg 0x04#8) { onBus (List.replicate 8 true) with txnDone := true }).map (fun t => (t.viol, t.rx)) =
      some ([.transactionNotDelimited 0x28400#18], 0xFF#8) := by decide

/-- X8 and X9: V6. -/
theorem test_X9_marks_V6 : (hostRead (.b 3) State.reset).viol = [.unwrittenRead (.b 3)] := by decide

/-- X12: V4 only, with `NCS = 1`; no pin event. -/
theorem test_X12_marks_V4_only :
    (match present (.word 0x00000#18) State.reset with
     | .next t => some (t.viol, t.trace)
     | .fault _ => none
     | .refused _ => none) = some ([.reservedCommand 0x00000#18], []) := by decide

/-- X11: V5, no pin event; `0x80` is not masked to `0x00`. -/
theorem test_X11_marks_V5 :
    (after (.readReg 0x80#8) (onBus [])).map (fun t => (t.viol, t.trace)) =
      some ([.addressOutOfRange 0x80#8], []) := by decide

/-- A command presented while one is in progress stops the machine (V3). -/
def midShift : State := tick (acceptCommand 0x180A5#18 (onBus []))

theorem test_reentry_stops : after .csAssert midShift = none := by decide

/-- After one position of SHIFT_OUT 0xA5 the sequencer stands at bit 6, SDO carries bit 7. -/
theorem test_tick_position : midShift.seq = ⟨.dataOut, 0, 6⟩ ∧ midShift.sdo = true ∧ midShift.busy = true := by decide

/-! ### The fetch of a word, host sequences, timing -/

theorem test_withFetchWord :
    (match step (State.reset.withFetchWord 18 0x08000) with
     | .next t => some (t.ncs, t.trace, t.inbox)
     | .fault _ => none
     | .refused _ => none) = some (false, [.write .ncs false], []) := by decide

/-- P2: the shadow of 0x40 is 0xBF. -/
theorem test_P2_expansion :
    (Pseudo.xshadow 0x1A#8 0x1F#8 0x40#8).expand =
      [.call .csAssert, .call (.writeReg 0x1A#8 0x40#8), .call .csRelease,
       .call .csAssert, .call (.writeReg 0x1F#8 0xBF#8), .call .csRelease] := by decide

/-- The timing of section 5 with `T_OUT_LOW = 2`, `T_OUT_HIGH = 3`, `T_IN_SETTLE = 5`. -/
def sampleTiming : Timing := ⟨300, 100, 2, 3, 5⟩

theorem test_durations :
    minDuration sampleTiming (outByteEvents 0xA5#8) = 40 ∧ minDuration sampleTiming (inByteEvents 0x5A#8) = 5 ∧
    minDuration sampleTiming (readFrame 0x02#7 0x80#8) = 445 ∧
    minDuration sampleTiming (writeFrame 0x3A#7 0x5A#8) = 480 ∧
    minDuration sampleTiming (burstFrame 0x42#7 (Vector.replicate 8 0x00#8)) = 480 := by decide +kernel

theorem test_gap :
    minDuration sampleTiming (untilFall (afterRise 8 (readFrame 0x02#7 0x80#8))) = 108 ∧
    minDuration sampleTiming (untilFall (afterRise 8 (writeFrame 0x3A#7 0x5A#8))) = 103 := by decide

/-! ### Witnesses: concrete states and operands that meet every hypothesis of each statement that has hypotheses, at the
boundary values of its clauses -/

/-- Idle, between transactions. -/
def idle : State := { State.reset with pins := ⟨10, 11, 12, 13⟩ }

/-- `step` answered a next state. -/
def stepped (s : State) : Option State :=
  match step s with
  | .next t => some t
  | .fault _ => none
  | .refused _ => none

theorem witness_EncodeThenDecode :
    (Instr.writeReg 0x7F#8 0xFF#8).wellFormed = true ∧ (Instr.readReg 0x00#8).wellFormed = true ∧
    Instr.csAssert.wellFormed = true := by decide

theorem witness_DecodeThenEncode : decode 0x37FFF#18 = .ok (.writeReg 0x7F#8 0xFF#8) := by decide

/-- One word for each reason to refuse, and one accepted word. -/
theorem witness_ReservedWordsRefused :
    opField 0x07FFF#18 = 0b000#3 ∧
    (opField 0x18100#18 ∈ [0b001#3, 0b010#3, 0b011#3, 0b100#3] ∧ addrField 0x18100#18 ≠ 0#7) ∧
    (opField 0x28201#18 ∈ [0b001#3, 0b010#3, 0b100#3, 0b101#3, 0b111#3] ∧ dataField 0x28201#18 ≠ 0#8) ∧
    decode 0x30000#18 = .ok (.writeReg 0x00#8 0x00#8) := by decide

theorem witness_OpcodeTableAgrees :
    decode 0x18000#18 = .ok (.shiftOut 0x00#8) ∧ decode 0x00000#18 = .error .reservedOp := by decide

/-- The seven commands: an idle block, with chip-select low and high, at both ends of the address range and of each of the
two address clauses. It meets the hypotheses of CsAssertRule, CsReleaseRule, ShiftOutRule, ShiftInRule, ReadRegRule,
WriteRegRule, ReadBurstRule (commands), SequencerRefinesCommand, LatchesHoldCommandWord, EventCountTable, MinimumDurations,
StartGuarantee, PhaseGapGuarantee, InByteTiming, SampledBitsOnlyReturned, TargetDecidesWhatIsRead,
BusResetTogglesChipSelect. -/
theorem witness_commands :
    (onBus []).busy = false ∧ idle.busy = false ∧ (0x00#8).toNat < 0x80 ∧ (0x7F#8).toNat < 0x80 ∧
    0x80 ≤ (0x80#8).toNat ∧ 0x80 ≤ (0xFF#8).toNat ∧
    ∀ i ∈ [Instr.csAssert, .csRelease, .shiftOut 0xFF#8, .shiftIn, .readReg 0x7F#8, .writeReg 0x7F#8 0x00#8,
      .readBurst 0x00#8], i.wellFormed = true := by decide

/-- Each of the seven answers a next state there. -/
theorem witness_commands_complete (samples : List Level) :
    ∀ i ∈ [Instr.csAssert, .csRelease, .shiftOut 0xFF#8, .shiftIn, .readReg 0x7F#8, .writeReg 0x7F#8 0x00#8,
      .readBurst 0x00#8], ∃ t, exec i (onBus samples) = .next t := by
  simp [exec, execCsAssert, execCsRelease, execShiftOut, execShiftIn, execReadReg, execWriteReg, execReadBurst,
    performRegisterCommand, performCommand, addressFits, Config.addrW, Config.dataW, onBus, State.busy, State.reset, Seq.atRest]

/-- ReadBurstRule, positions: READ_BURST 0x42 at its first position, at the gap, at its last. -/
theorem witness_ReadBurstRule_positions :
    ∀ q ∈ [(⟨.start, 0, 7⟩ : Seq), ⟨.gap, 0, 7⟩, ⟨.dataIn, 7, 0⟩, ⟨.dataIn, 6, 0⟩, ⟨.addr, 0, 0⟩],
      ({ onBus [] with op := 0b111#3, seq := q } : State).busy = true ∧ q.allowed 0b111#3 = true := by decide

theorem witness_BusyBlockStopsReentry : midShift.busy = true := by decide

theorem witness_WideAddressMarksOnly :
    idle.busy = false ∧ 0x80 ≤ (0x80#8).toNat ∧ 0x80 ≤ (0xFF#8).toNat := by decide

/-- The clauses of the entry check: chip-select high; low after a register command; low before one; a chip-select command. -/
theorem witness_EntryCheckMarks :
    (Instr.shiftIn.wellFormed = true ∧ idle.busy = false ∧ idle.ncs = true) ∧
    (({ onBus [] with txnDone := true } : State).busy = false ∧ (onBus []).ncs = false) ∧
    ((onBus []).txnDone = false ∧ (onBus []).busy = false ∧ Instr.csAssert.wellFormed = true) := by decide

theorem witness_OtherAgentStopsReentry :
    ({ idle with inbox := [.intruder 0x08000#18] } : State).inbox = [.intruder 0x08000#18] := by decide

theorem witness_ReservedWordMarksOnly : idle.busy = false ∧ decode 0x3C2FF#18 = .error .unusedDataField := by decide

/-- Both clauses of a host read. -/
theorem witness_HostReadReturnsRegister :
    State.hostRegWritten { idle with rxWritten := true } .rx = true ∧ idle.hostRegWritten .rx = false ∧
    idle.hostRegWritten (.b 7) = false := by decide

/-- BusyReadReturnsFlag: read at rest, and of a block in the middle of a command. -/
theorem witness_BusyReadReturnsFlag :
    idle.busy = false ∧ midShift.busy = true ∧
    (stepped { idle with inbox := [.readBusy, .readBusy] }).map (fun t => (t.returned, t.inbox, t.trace)) =
      some ([.flag false], [.readBusy], []) ∧
    (hostReadBusy midShift).returned = [.flag true] := by decide

/-- ViolationsSticky, StepExtendsHistory: a step that answers a next state, as a whole command, a position, a mark; with
`G_VIOL` a set. -/
theorem witness_steps :
    (stepped { idle with inbox := [.call .csAssert] }).map (fun t => t.ncs) = some false ∧
    (stepped midShift).map (fun t => t.seq) = some ⟨.dataOut, 0, 5⟩ ∧
    (stepped { idle with inbox := [.read .rx], viol := [.unwrittenRead (.b 0)] }).map (fun t => t.viol) =
      some [.unwrittenRead (.b 0), .unwrittenRead .rx] ∧
    [Violation.unwrittenRead (.b 0)].Nodup := by decide

theorem witness_StepRunsDecodedCommand :
    idle.busy = false ∧ decode 0x2FF00#18 = .ok (.readReg 0x7F#8) ∧
    ({ idle with inbox := [.word 0x2FF00#18] } : State).inbox = [.word 0x2FF00#18] ∧
    ({ idle with inbox := [.call (.readReg 0x7F#8)] } : State).inbox = [.call (.readReg 0x7F#8)] := by decide

theorem witness_BusyStepAdvancesSequencer :
    midShift.busy = true ∧ ∀ cw rest, midShift.inbox ≠ .intruder cw :: rest :=
  ⟨by decide, fun _ _ h => absurd (h.symm.trans (by decide : midShift.inbox = [])) (List.cons_ne_nil _ _)⟩

theorem witness_IdleStepChangesNothing : idle.busy = false ∧ idle.inbox = [] := by decide

theorem witness_HostListRunsInOrder :
    idle.busy = false ∧ idle.inbox = [] ∧
    ∃ t, presentAll [.call .csAssert, .waitUs 300, .word 0x18002#18, .call .csRelease] idle = .next t :=
  ⟨by decide, by decide, _, rfl⟩

/-- `PinsAtRest` holds of an idle state and of a state in the middle of a command, and each steps. -/
theorem witness_StepKeepsPinsAtRest :
    PinsAtRest idle ∧ PinsAtRest midShift ∧ (stepped idle).isSome = true ∧ (stepped midShift).isSome = true :=
  ⟨by constructor <;> decide, by constructor <;> decide, by decide, by decide⟩

theorem witness_StepKeepsSdoAtLastBit :
    SdoHoldsLastBit idle ∧ SdoHoldsLastBit midShift ∧ (stepped midShift).isSome = true :=
  ⟨by unfold SdoHoldsLastBit; decide, by unfold SdoHoldsLastBit; decide, by decide⟩

theorem witness_StepKeepsTraceFaithful :
    TraceExplainsPins idle ∧ (stepped { idle with inbox := [.call .csAssert] }).isSome = true := ⟨rfl, by decide⟩

theorem witness_StepKeepsDataQuiet :
    DataQuiet idle ∧ DataQuiet midShift ∧ (stepped midShift).isSome = true :=
  ⟨by unfold DataQuiet; decide, by unfold DataQuiet; decide, by decide⟩

/-- The clauses on written marks: a step that sets one, steps that leave one false, a mark that stays. -/
theorem witness_UnwrittenRegistersUntouched :
    (stepped { onBus (List.replicate 8 true) with inbox := [.call .shiftIn] }).map (fun t => (t.rxWritten, t.bWritten[7]))
      = some (true, false) ∧
    (stepped { idle with inbox := [.call .csAssert] }).map (fun t => (t.rxWritten, t.bWritten[0])) = some (false, false) ∧
    (stepped { idle with rxWritten := true, bWritten := Vector.replicate 8 true }).map
      (fun t => (t.rxWritten, t.bWritten[0])) = some (true, true) := by decide

/-- The clauses on what a command touches: chip-select changed; a direction event; a sample. -/
theorem witness_OnlyTheseCommandsTouch :
    (after .csAssert idle).map (fun t => t.ncs != idle.ncs) = some true ∧
    (after (.readBurst 0x7F#8) (onBus (List.replicate 64 true))).map
      (fun t => (t.trace.contains (.mode .sdo .input), t.trace.contains (.sample true))) = some (true, true) := by
  decide +kernel

theorem witness_EventShapeDependsOnCodeOnly :
    (Instr.writeReg 0x00#8 0x00#8).wellFormed = true ∧ (Instr.writeReg 0x7F#8 0xFF#8).wellFormed = true ∧
    opField (encode (.writeReg 0x00#8 0x00#8)) = opField (encode (.writeReg 0x7F#8 0xFF#8)) ∧
    idle.busy = false ∧ (onBus []).busy = false := by decide

theorem witness_BitsOnTheWire :
    idle.busy = false ∧ idle.sclk = true ∧ idle.sdoDir = .output ∧ (0x7F#8).toNat < 0x80 := by decide

/-- Admissible durations of the events before the first falling edge exist, at the bound itself and above it. -/
theorem witness_durations :
    Admissible sampleTiming (untilFall (readFrame 0x02#7 0x80#8)) [300] ∧
    Admissible sampleTiming (untilFall (afterRise 8 (readFrame 0x02#7 0x80#8))) [3, 150, 5] :=
  ⟨by repeat constructor,
   .cons (by decide) (.cons (by decide) (.cons (by decide) .nil))⟩

/-- The clock low at the start (R114) and high. -/
theorem witness_ByteClockEdges :
    ({ idle with sclk := false } : State).busy = false ∧ idle.sclk = true ∧
    clockEdges { idle.wire with sclk := false } (outByteEvents 0x00#8) =
      [true, false, true, false, true, false, true, false, true, false, true, false, true, false, true] := by decide

theorem witness_GuardedFormsRaiseNoViolation :
    (∀ p ∈ [Pseudo.xread 0x7F#8, .xwrite 0x00#8 0xFF#8, .xburst 0x42#8, .xshadow 0x1A#8 0x1F#8 0x40#8],
      p.isGuarded = true ∧ p.wellFormed = true) ∧
    idle.busy = false ∧ idle.ncs = true ∧ idle.txnDone = false := by decide

/-- A start-up sequence with every operand given. -/
def sampleStartup : StartupParams where
  wakeReg := 0x3A#8
  wakeValue := 0x5A#8
  obsReg := 0x3D#8
  clearValue := 0x00#8
  config := [(0x12#8, 0x01#8), (0x7F#8, 0xFF#8)]
  probe := #v[0x02#8, 0x03#8, 0x04#8, 0x05#8]
  laserCtl := 0x1A#8
  laserCtlShadow := 0x1F#8
  laserCtlValue := 0x40#8
  laserPwr := 0x1C#8
  laserPwrShadow := 0x1D#8
  laserPwrValue := 0x08#8
  mainConfig := 0x12#8
  mainConfigValue := 0x02#8
  linkMask := 0x80#8

/-- LinkPollBounded: cap 0; a first answer with the tested bit 1; a first answer with it 0 and the cap reached. -/
def polled (cap : Nat) (samples : List Level) : Option (Nat × Byte) :=
  match linkPoll 0x80#8 cap { idle with sdi := samples } with
  | .next t => some (t.returned.length, t.rx)
  | .fault _ => none
  | .refused _ => none

theorem witness_LinkPollBounded :
    idle.busy = false ∧ idle.ncs = true ∧ idle.txnDone = false ∧ polled 0 [] = some (0, 0x00#8) ∧
    polled 2 (List.replicate 16 true) = some (3, 0xFF#8) ∧ polled 1 (List.replicate 16 false) = some (3, 0x00#8) := by
  decide

theorem witness_StartupReachesReady : sampleStartup.wellFormed = true ∧ idle.busy = false := by decide

end Sys2Proof.Tests
end

namespace Sys2Proof.Machine

/-! ### The family of spec/00_scope.md: what a step is, and the history it leaves -/

/-! What the event sequence of a command leaves alone. -/

theorem bodyOf_pins (i : Instr) (s : State) : (bodyOf i s).pins = s.pins := by
  cases i <;>
    simp [bodyOf, csAssertBody, csReleaseBody, shiftOutBody, shiftInBody, readRegBody, writeRegBody, readBurstBody,
      sendByte_eq, receiveByte_eq, receiveBurst_eq]

theorem bodyOf_returned (i : Instr) (s : State) : (bodyOf i s).returned = s.returned := by
  cases i <;>
    simp [bodyOf, csAssertBody, csReleaseBody, shiftOutBody, shiftInBody, readRegBody, writeRegBody, readBurstBody,
      sendByte_eq, receiveByte_eq, receiveBurst_eq]

theorem completed_pins (i : Instr) (s : State) : (completed i s).pins = s.pins := by
  simp [completed, bodyOf_pins, acceptCommand_eq]

/-- A completed command hands the host one entry (R88, R181). -/
theorem completed_returned (i : Instr) (s : State) : ∃ r, (completed i s).returned = s.returned ++ [r] :=
  ⟨_, by rw [completed, completeCommand_returned, bodyOf_returned, acceptCommand_eq]⟩

theorem hostRead_pins (r : HostReg) (s : State) : (hostRead r s).pins = s.pins := by
  unfold hostRead
  split
  · rfl
  · exact record_pins _ s

theorem hostRead_returned (r : HostReg) (s : State) :
    (hostRead r s).returned = s.returned ++ [.byte (s.hostReg r)] := by
  unfold hostRead
  split
  · rfl
  · simp

/-! What one position of the sequencer leaves alone. -/

/-- A tick at rest does nothing; a busy one performs the position's events and moves on or completes (R31, R178). -/
theorem tick_cases (s : State) :
    (s.busy = false ∧ tick s = s) ∨
    (s.busy = true ∧ tick s = completeCommand (positionEvents s)) ∨
    (s.busy = true ∧ tick s = { positionEvents s with seq := nextSeq s.op s.seq }) := by
  unfold tick
  split
  · next hb =>
    dsimp only
    split
    · exact .inr (.inl ⟨hb, rfl⟩)
    · exact .inr (.inr ⟨hb, rfl⟩)
  · next hb => exact .inl ⟨by simpa using hb, rfl⟩

theorem tick_inbox (s : State) : (tick s).inbox = s.inbox := by
  obtain ⟨-, -, -, -, -, -, -, -, hinbox⟩ := positionEvents_frame s
  obtain ⟨-, h⟩ | ⟨-, h⟩ | ⟨-, h⟩ := tick_cases s <;> simp [h, hinbox]

theorem tick_pins (s : State) : (tick s).pins = s.pins := by
  obtain ⟨-, -, -, hpins, -⟩ := positionEvents_frame s
  obtain ⟨-, h⟩ | ⟨-, h⟩ | ⟨-, h⟩ := tick_cases s <;> simp [h, hpins]

theorem tick_returned (s : State) : ∃ rs, (tick s).returned = s.returned ++ rs := by
  obtain ⟨-, -, -, -, -, -, -, hreturned, -⟩ := positionEvents_frame s
  obtain ⟨-, h⟩ | ⟨-, h⟩ | ⟨-, h⟩ := tick_cases s
  · exact ⟨[], by simp [h]⟩
  · exact ⟨_, by rw [h, completeCommand_returned, hreturned]⟩
  · exact ⟨[], by simp [h, hreturned]⟩

theorem step_pins {s t : State} (h : step s = .next t) : t.pins = s.pins := by
  obtain rfl | ⟨-, rest, rfl | ⟨y, rfl⟩ | ⟨r, rfl⟩ | rfl | ⟨i, -, rfl⟩⟩ := step_cases h
  · exact tick_pins s
  · rfl
  · exact record_pins y _
  · exact hostRead_pins r _
  · rfl
  · exact completed_pins i _

theorem step_returned {s t : State} (h : step s = .next t) : ∃ rs, t.returned = s.returned ++ rs := by
  obtain rfl | ⟨-, rest, rfl | ⟨y, rfl⟩ | ⟨r, rfl⟩ | rfl | ⟨i, -, rfl⟩⟩ := step_cases h
  · exact tick_returned s
  · exact ⟨[], by simp⟩
  · exact ⟨[], by simp⟩
  · exact ⟨_, hostRead_returned r _⟩
  · exact ⟨_, rfl⟩
  · obtain ⟨r, hr⟩ := completed_returned i { s with inbox := rest }
    exact ⟨[r], hr⟩

/-- Settles O30: a step appends events that the pins follow, and what the longer trace leaves on the pins is what those
events leave after the trace before. -/
theorem stepKeepsTraceFaithful : Obligations.StepKeepsTraceFaithful := by
  unfold Obligations.StepKeepsTraceFaithful
  refine ⟨rfl, fun s t hs h => ?_⟩
  obtain ⟨es, htrace, hwire, -⟩ := step_extends h
  calc t.wire = s.wire.afterAll es := hwire
    _ = (Wire.reset.afterAll s.trace).afterAll es := by rw [← hs]
    _ = Wire.reset.afterAll t.trace := by rw [htrace, afterAll_append]

/-- Settles O32: each of the things a step can do keeps the binding and appends to the history. -/
theorem stepExtendsHistory : Obligations.StepExtendsHistory := by
  unfold Obligations.StepExtendsHistory
  intro s t h
  obtain ⟨es, htrace, -⟩ := step_extends h
  exact ⟨step_pins h, ⟨es, htrace⟩, step_returned h⟩

/-! ### Steps at rest and in a busy block -/

/-- The number of a command word places that word first among what the host does next. -/
theorem placeWord_toNat (cw : CmdWord) (s : State) :
    placeWord s 18 cw.toNat = { s with inbox := .word cw :: s.inbox } := by
  have hbits : cw.toNat % 2 ^ 18 = cw.toNat := Nat.mod_eq_of_lt cw.isLt
  simp only [placeWord, hbits]
  rw [if_pos cw.isLt, BitVec.ofNat_toNat, BitVec.setWidth_eq]

/-- An idle block takes the host's next action (R182); another agent's word stops it either way. -/
theorem step_presents {s : State} {x : HostAction} {rest : List HostAction} (hb : s.busy = false)
    (h : s.inbox = x :: rest) : step s = present x { s with inbox := rest } := by
  unfold step advance
  rw [h]
  cases x with
  | intruder cw => rfl
  | _ => simp [hb]

theorem presentWord_of_decode {cw : CmdWord} {i : Instr} {s : State} (hb : s.busy = false) (hd : decode cw = .ok i) :
    presentWord cw s = exec i s := by
  simp [presentWord, hb, hd]

/-- Settles O23: the port decodes a presented word, and the word `withFetchWord` places is the word it was given. -/
theorem stepRunsDecodedCommand : Obligations.StepRunsDecodedCommand := by
  unfold Obligations.StepRunsDecodedCommand
  intro cw rest i s hb hd
  have runsWord (u : State) (ys : List HostAction) (hu : u.busy = false) (h : u.inbox = .word cw :: ys) :
      step u = exec i { u with inbox := ys } :=
    (step_presents hu h).trans (presentWord_of_decode hu hd)
  refine ⟨runsWord s rest hb, step_presents hb, ?_⟩
  rw [State.withFetchWord, placeWord_toNat cw s]
  exact runsWord _ s.inbox hb rfl

/-- Settles O24: a busy block does not look at what the host does next. -/
theorem busyStepAdvancesSequencer : Obligations.BusyStepAdvancesSequencer := by
  unfold Obligations.BusyStepAdvancesSequencer
  intro s hb hi
  refine ⟨?_, tick_inbox s⟩
  unfold step advance
  split
  · rfl
  · next cw rest h => exact absurd h (hi cw rest)
  · rw [if_pos hb]

/-! ### A command position by position -/

/-- What a register command does before its data phase (R130 to R133): the start delay, the address byte, the gap delay,
with the two direction events of a burst. -/
def addressPhase (s : State) : State :=
  let s1 := delay .tStart s
  let s2 := sendByte (addressByte (s.op == opWriteReg) s.a) (if s.op = opReadBurst then pinMode .sdo .output s1 else s1)
  delay .tPhase (if s.op = opReadBurst then pinMode .sdo .input s2 else s2)

theorem addressPhase_op (s : State) : (addressPhase s).op = s.op := by
  by_cases ho : s.op = opReadBurst <;> simp [addressPhase, sendByte_eq, ho]

theorem addressPhase_v (s : State) : (addressPhase s).v = s.v := by
  by_cases ho : s.op = opReadBurst <;> simp [addressPhase, sendByte_eq, ho]

theorem readRegBody_eq {s : State} (ho : s.op = opReadReg) : readRegBody s = shiftInBody (addressPhase s) := by
  have hw : (opReadReg == opWriteReg) = false := rfl
  have hb : opReadReg ≠ opReadBurst := by decide
  simp only [readRegBody, shiftInBody, addressPhase, ho, hw, if_neg hb]

theorem writeRegBody_eq {s : State} (ho : s.op = opWriteReg) : writeRegBody s = shiftOutBody (addressPhase s) := by
  have hw : (opWriteReg == opWriteReg) = true := rfl
  have hb : opWriteReg ≠ opReadBurst := by decide
  rw [shiftOutBody, addressPhase_v]
  simp only [writeRegBody, addressPhase, ho, hw, if_neg hb]

theorem readBurstBody_eq {s : State} (ho : s.op = opReadBurst) :
    readBurstBody s = pinMode .sdo .output (bytesUp.foldl (fun s k => receiveBurstByte k s) (addressPhase s)) := by
  have hw : (opReadBurst == opWriteReg) = false := rfl
  simp only [readBurstBody, addressPhase, ho, hw, if_true]

/-- No data phase reads the position, and completion overwrites it. -/
theorem completeCommand_shiftOutBody_setSeq (s : State) (q : Seq) :
    completeCommand (shiftOutBody { s with seq := q }) = completeCommand (shiftOutBody s) := by
  simp [shiftOutBody, sendByte_eq, completeCommand, resultOf]

theorem completeCommand_shiftInBody_setSeq (s : State) (q : Seq) :
    completeCommand (shiftInBody { s with seq := q }) = completeCommand (shiftInBody s) := by
  simp [shiftInBody, receiveByte_eq, answerByte_eq, setRx, completeCommand, resultOf]

theorem completeCommand_burstBytes_setSeq (s : State) (q : Seq) :
    completeCommand (pinMode .sdo .output (bytesUp.foldl (fun s k => receiveBurstByte k s) { s with seq := q })) =
      completeCommand (pinMode .sdo .output (bytesUp.foldl (fun s k => receiveBurstByte k s) s)) := by
  rw [burstBytes_congr bytesUp s q s.rxsr]
  generalize bytesUp.foldl (fun s k => receiveBurstByte k s) s = u
  rfl

theorem ticks_start (s : State) (h : s.seq = ⟨.start, 0, topBit⟩) :
    ticks 1 s =
      { (if s.op = opReadBurst then pinMode .sdo .output (delay .tStart s) else delay .tStart s) with
        seq := ⟨.addr, 0, topBit⟩ } := by
  simp [ticks, tick, State.busy, positionEvents, nextSeq, h]

/-- Where the data phase of a register command begins (R131 to R133). -/
def dataStart (op : BitVec 3) : Seq := ⟨if op = opWriteReg then .dataOut else .dataIn, 0, topBit⟩

theorem dataStart_phase_ne_idle (op : BitVec 3) : (dataStart op).phase ≠ .idle := by
  unfold dataStart
  split
  · exact nofun
  · exact nofun

theorem nextSeq_gap (op : BitVec 3) : nextSeq op ⟨.gap, 0, topBit⟩ = dataStart op := by
  by_cases ho : op = opWriteReg <;> simp [nextSeq, dataStart, ho]

theorem ticks_gap (s : State) (h : s.seq = ⟨.gap, 0, topBit⟩) :
    ticks 1 s =
      { (if s.op = opReadBurst then delay .tPhase (pinMode .sdo .input s) else delay .tPhase s) with
        seq := dataStart s.op } := by
  simp [ticks, tick, State.busy, positionEvents, h, nextSeq_gap, dataStart_phase_ne_idle, -topBit_eq]

/-- The ten positions before the data phase of a register command. -/
theorem ticks_addressPhase (s : State) (h : s.seq = ⟨.start, 0, topBit⟩) :
    ticks 10 s = { addressPhase s with seq := dataStart s.op } := by
  rw [ticks_add 1 9, ticks_add 8 1, ticks_start s h, (addr_byte _ rfl).1, ticks_gap _ rfl]
  by_cases ho : s.op = opReadBurst <;> simp [addressPhase, sendByte_eq, ho, delay, emit, pinMode]

theorem ticks_csAssert (s : State) (h : s.seq = ⟨.pin, 0, topBit⟩) (ho : s.op = opCsAssert) :
    ticks 1 s = completeCommand (csAssertBody s) := by
  have hr : opCsAssert ≠ opCsRelease := by decide
  simp [ticks, tick, State.busy, positionEvents, nextSeq, Seq.atRest, csAssertBody, h, ho, hr]

theorem ticks_csRelease (s : State) (h : s.seq = ⟨.pin, 0, topBit⟩) (ho : s.op = opCsRelease) :
    ticks 1 s = completeCommand (csReleaseBody s) := by
  simp [ticks, tick, State.busy, positionEvents, nextSeq, Seq.atRest, csReleaseBody, h, ho]

theorem ticks_readReg (s : State) (h : s.seq = ⟨.start, 0, topBit⟩) (ho : s.op = opReadReg) :
    ticks 18 s = completeCommand (readRegBody s) := by
  rw [ticks_add 10 8, ticks_addressPhase s h, ho, (dataIn_byte _ rfl (by simp [addressPhase_op, ho]; decide)).1,
    readRegBody_eq ho]
  exact completeCommand_shiftInBody_setSeq _ _

theorem ticks_writeReg (s : State) (h : s.seq = ⟨.start, 0, topBit⟩) (ho : s.op = opWriteReg) :
    ticks 18 s = completeCommand (writeRegBody s) := by
  rw [ticks_add 10 8, ticks_addressPhase s h, ho, (dataOut_byte _ rfl).1, writeRegBody_eq ho]
  exact completeCommand_shiftOutBody_setSeq _ _

theorem ticks_readBurst (s : State) (h : s.seq = ⟨.start, 0, topBit⟩) (ho : s.op = opReadBurst) :
    ticks (10 + Config.dataW * Config.burstLen) s = completeCommand (readBurstBody s) := by
  rw [ticks_add, ticks_addressPhase s h, ho, (burstIn_all _ rfl (by simp [addressPhase_op, ho])).1,
    readBurstBody_eq ho]
  exact completeCommand_burstBytes_setSeq _ _

/-- The positions of a command, one after another, are its event sequence and its completion. -/
theorem ticks_accepted (i : Instr) (s : State) :
    ticks (positionsOf i).length (acceptCommand (encode i) s) = completed i s := by
  have hseq : (acceptCommand (encode i) s).seq = firstSeq (opField (encode i)) := by rw [acceptCommand_eq]
  have hop : (acceptCommand (encode i) s).op = opField (encode i) := by rw [acceptCommand_eq]
  rw [completed]
  generalize acceptCommand (encode i) s = u at hseq hop ⊢
  cases i <;> simp only [encode, opField_packWord] at hseq hop
  case csAssert => exact ticks_csAssert u hseq hop
  case csRelease => exact ticks_csRelease u hseq hop
  case shiftOut b => exact (dataOut_byte u hseq).1
  case shiftIn => exact (dataIn_byte u hseq (by rw [hop]; decide)).1
  case readReg addr => exact ticks_readReg u hseq hop
  case writeReg addr v => exact ticks_writeReg u hseq hop
  case readBurst addr => exact ticks_readBurst u hseq hop

/-- Settles O14: both sides are the command's event sequence between acceptance and completion. -/
theorem sequencerRefinesCommand : Obligations.SequencerRefinesCommand := by
  unfold Obligations.SequencerRefinesCommand
  intro i s hi hb
  rw [ticks_accepted, exec_completes hb hi]

/-! ### What the data-out pin carries at the rising edges -/

theorem risingBits_delay (w : Wire) (t : DelayParam) (es : List Event) :
    risingBits w (.delay t :: es) = risingBits w es := by
  rw [risingBits, if_neg (by simp)]
  rfl

theorem risingBits_mode (w : Wire) (d : Dir) (es : List Event) :
    risingBits w (.mode .sdo d :: es) = risingBits { w with sdoDir := d } es := by
  rw [risingBits, if_neg (by simp)]
  rfl

/-- During a run of in bytes the data-out pin stays as it was (R91, R135). -/
theorem risingBits_inBytes (w : Wire) (f : Fin Config.burstLen → Byte) (ks : List (Fin Config.burstLen)) :
    risingBits w (ks.flatMap (fun k => inByteEvents (f k))) = List.replicate (8 * ks.length) w.dataOut := by
  induction ks generalizing w with
  | nil => rfl
  | cons k ks ih =>
    have hd : ({ w with sclk := true } : Wire).dataOut = w.dataOut := rfl
    rw [List.flatMap_cons, risingBits_append, risingBits_inByte, afterAll_inByte, ih, hd, ← List.replicate_add,
      List.length_cons, Nat.mul_succ, Nat.add_comm]

theorem getLsbD_addressByte (dir : Bool) (addr : Addr) (i : Nat) :
    (addressByte dir addr).getLsbD i = if i < 7 then addr.getLsbD i else (BitVec.ofBool dir).getLsbD (i - 7) := by
  unfold addressByte
  rw [BitVec.getLsbD_append]

/-- Below the direction bit the address byte carries the operand's bits. -/
theorem bitOf_addressByte (dir : Bool) (addr : Byte) (i : Fin Config.dataW) (hi : i ≠ topBit) :
    bitOf (addressByte dir (addr.setWidth Config.addrW)) i = addr.getLsbD i.val := by
  have hlt : i.val < 7 := by
    have hne : i.val ≠ 7 := fun e => hi (Fin.ext e)
    have := i.isLt
    simp only [Config.dataW] at this
    omega
  rw [bitOf, getLsbD_addressByte, if_pos hlt, BitVec.getLsbD_setWidth, decide_eq_true hlt, Bool.true_and]

theorem bitOf_addressByte_top (dir : Bool) (addr : Addr) : bitOf (addressByte dir addr) topBit = dir := by
  rw [bitOf, getLsbD_addressByte, if_neg (by decide)]
  cases dir <;> rfl

/-- The bits a target takes from the address byte: the direction, then the address, bit 6 first (R82, R89). -/
theorem risingBits_addressByte (w : Wire) (dir : Bool) (addr : Byte) (hd : w.sdoDir = .output) :
    risingBits w (outByteEvents (addressByte dir (addr.setWidth Config.addrW))) =
      some dir :: [6, 5, 4, 3, 2, 1, 0].map (fun i => some (addr.getLsbD i)) := by
  have htop := bitOf_addressByte_top dir (addr.setWidth Config.addrW)
  have hlow : ([6, 5, 4, 3, 2, 1, 0] : List (Fin Config.dataW)).map
        (fun i => some (bitOf (addressByte dir (addr.setWidth Config.addrW)) i)) =
      ([6, 5, 4, 3, 2, 1, 0] : List (Fin Config.dataW)).map (fun i => some (addr.getLsbD i.val)) :=
    List.map_congr_left fun i hi => by rw [bitOf_addressByte dir addr i (fun e => absurd (e ▸ hi) (by decide))]
  rw [topBit_eq] at htop
  rw [risingBits_outByte w _ hd, List.map_cons, htop, hlow]
  rfl

theorem risingBits_readFrame (w : Wire) (addr d : Byte) (hd : w.sdoDir = .output) :
    risingBits w (readFrame (addr.setWidth Config.addrW) d) =
      some false :: [6, 5, 4, 3, 2, 1, 0].map (fun i => some (addr.getLsbD i))
        ++ List.replicate 8 (some (addr.getLsbD 0)) := by
  rw [readFrame, List.cons_append, risingBits_delay, risingBits_append, risingBits_addressByte w false addr hd,
    afterAll_outByte, risingBits_delay, risingBits_inByte, bitOf_addressByte false addr 0 zero_ne_topBit]
  simp [Wire.dataOut, hd]

theorem risingBits_writeFrame (w : Wire) (addr v : Byte) (hd : w.sdoDir = .output) :
    risingBits w (writeFrame (addr.setWidth Config.addrW) v) =
      some true :: [6, 5, 4, 3, 2, 1, 0].map (fun i => some (addr.getLsbD i))
        ++ [7, 6, 5, 4, 3, 2, 1, 0].map (fun i => some (v.getLsbD i)) := by
  rw [writeFrame, List.cons_append, risingBits_delay, risingBits_append, risingBits_addressByte w true addr hd,
    afterAll_outByte, risingBits_delay, risingBits_outByte { w with sclk := true, sdo := _ } v hd]
  rfl

theorem risingBits_burstFrame (w : Wire) (addr : Byte) (d : Vector Byte Config.burstLen) :
    risingBits w (burstFrame (addr.setWidth Config.addrW) d) =
      some false :: [6, 5, 4, 3, 2, 1, 0].map (fun i => some (addr.getLsbD i)) ++ List.replicate 64 none := by
  have hrestore (u : Wire) : risingBits u [.mode .sdo .output] = [] := rfl
  have hcells : 8 * bytesUp.length = 64 := rfl
  simp only [burstFrame, List.cons_append, List.append_assoc, risingBits_delay, risingBits_mode]
  rw [risingBits_append, risingBits_addressByte _ false addr rfl, risingBits_mode, risingBits_delay, risingBits_append,
    risingBits_inBytes _ (fun k => d[k.val]), hrestore, List.append_nil, hcells]
  rfl

/-- Settles O45: the events of each command are its frame, and the frames carry these bits. -/
theorem bitsOnTheWire : Obligations.BitsOnTheWire := by
  unfold Obligations.BitsOnTheWire
  intro addr v s hb _ hd ha p hp
  have ha' := (addrInRange_iff addr).2 ha
  have runs (i : Instr) (hi : i.wellFormed = true) (bits : List (Option Level))
      (h : risingBits s.wire (commandEvents i s) = bits) :
      ∃ t es, exec i s = .next t ∧ t.trace = s.trace ++ es ∧ risingBits s.wire es = bits :=
    ⟨_, _, exec_completes hb hi, completed_trace i s, h⟩
  simp only [List.mem_cons, List.not_mem_nil, or_false] at hp
  obtain rfl | rfl | rfl | rfl := hp
  · exact runs (.shiftOut v) rfl _ (risingBits_outByte s.wire v hd)
  · exact runs (.readReg addr) ha' _ (risingBits_readFrame s.wire addr _ hd)
  · exact runs (.writeReg addr v) ha' _ (risingBits_writeFrame s.wire addr v hd)
  · exact runs (.readBurst addr) ha' _ (risingBits_burstFrame s.wire addr _)

end Sys2Proof.Machine

namespace Sys2Proof.Machine

/-! ### The family of spec/10_state.md: what every step keeps, what commands read and touch, reset -/

theorem phase_idle_of_not_busy {s : State} (hb : s.busy = false) : s.seq.phase = .idle := by
  simpa [State.busy] using hb

/-! What every step keeps. -/

section
variable {P : State → Prop}

/-- `n` positions keep what one position keeps. -/
theorem ticks_keep (htick : ∀ s, P s → P (tick s)) (n : Nat) (s : State) (h : P s) : P (ticks n s) := by
  induction n generalizing s with
  | zero => exact h
  | succ n ih => exact ih (tick s) (htick s h)

/-- A step is made of five moves: what the host does next is taken from the inbox, a violation is recorded, values go to
the host, a command is accepted, a position is performed. What all five keep, every step keeps: a whole command is its
acceptance and its positions (R12, R31). -/
theorem step_keeps
    (hinbox : ∀ s rest, P s → P { s with inbox := rest })
    (hrecord : ∀ s x, P s → P (record x s))
    (hreturned : ∀ s rs, P s → P { s with returned := rs })
    (haccept : ∀ s i, s.busy = false → P s → P (acceptCommand (encode i) s))
    (htick : ∀ s, P s → P (tick s))
    {s t : State} (h : step s = .next t) (hs : P s) : P t := by
  obtain rfl | ⟨hb, rest, rfl | ⟨y, rfl⟩ | ⟨r, rfl⟩ | rfl | ⟨i, -, rfl⟩⟩ := step_cases h
  · exact htick s hs
  · exact hinbox s rest hs
  · exact hrecord _ y (hinbox s rest hs)
  · unfold hostRead
    refine hreturned _ _ ?_
    split
    · exact hinbox s rest hs
    · exact hrecord _ _ (hinbox s rest hs)
  · exact hreturned _ _ (hinbox s rest hs)
  · rw [← ticks_accepted]
    exact ticks_keep htick _ _ (haccept _ i hb (hinbox s rest hs))

end

/-! ### Where a position leads -/

/-- The next position belongs to the command in progress or is `(IDLE, 0, 7)`. -/
theorem nextSeq_busy_or_atRest (op : BitVec 3) (q : Seq) :
    (nextSeq op q).phase ≠ .idle ∨ nextSeq op q = Seq.atRest := by
  rcases q with ⟨phase, k, i⟩
  cases phase with
  | idle | pin => exact .inr rfl
  | start => exact .inl nofun
  | addr | gap => simp only [nextSeq]; split <;> exact .inl nofun
  | dataOut =>
    simp only [nextSeq]
    split
    · exact .inr rfl
    · exact .inl nofun
  | dataIn =>
    simp only [nextSeq]
    split
    · split
      · exact .inl nofun
      · exact .inr rfl
    · exact .inl nofun

/-- A busy tick moves `SEQ` to the next position, which after the last one is the position at rest (R31). -/
theorem tick_seq {s : State} (hb : s.busy = true) : (tick s).seq = nextSeq s.op s.seq := by
  unfold tick
  rw [if_pos hb]
  dsimp only
  split
  · next h => rw [completeCommand_seq, (nextSeq_busy_or_atRest s.op s.seq).resolve_left (not_not_intro h)]
  · rfl

/-- Apart from the position, a busy tick leaves on the pins what its events left there. -/
theorem tick_pinState {s : State} (hb : s.busy = true) :
    (tick s).wire = (positionEvents s).wire ∧ (tick s).txsr = (positionEvents s).txsr ∧ (tick s).op = s.op ∧
    (tick s).ncsDir = s.ncsDir ∧ (tick s).sclkDir = s.sclkDir ∧ (tick s).sdiDir = s.sdiDir := by
  obtain ⟨hop, -, -, -, hncs, hsclk, hsdi, -, -⟩ := positionEvents_frame s
  obtain ⟨h, -⟩ | ⟨-, h⟩ | ⟨-, h⟩ := tick_cases s
  · rw [hb] at h
    cases h
  · rw [h]
    exact ⟨rfl, rfl, hop, hncs, hsclk, hsdi⟩
  · rw [h]
    exact ⟨rfl, rfl, hop, hncs, hsclk, hsdi⟩


/-- The sequencer does not leave the positions of the latched command (R31). -/
theorem nextSeq_allowed {op : BitVec 3} {q : Seq} (h : q.allowed op = true) : (nextSeq op q).allowed op = true := by
  have hrest : Seq.atRest.allowed op = true := beq_self_eq_true Seq.atRest
  rcases q with ⟨phase, k, i⟩
  cases phase with
  | idle | pin => exact hrest
  | start =>
    simp only [Seq.allowed, Bool.and_eq_true] at h
    simp [nextSeq, Seq.allowed, h]
  | addr =>
    simp only [Seq.allowed, Bool.and_eq_true] at h
    simp only [nextSeq]
    split <;> simp [Seq.allowed, h]
  | gap =>
    simp only [Seq.allowed, isRegisterOp, Bool.and_eq_true, Bool.or_eq_true, beq_iff_eq] at h
    simp only [nextSeq]
    split
    · next ho => simp [Seq.allowed, ho]
    · next ho =>
      obtain ⟨⟨(hr | hw) | hb, -⟩, -⟩ := h
      · simp [Seq.allowed, hr]
      · exact absurd hw ho
      · simp [Seq.allowed, hb]
  | dataOut =>
    simp only [Seq.allowed, Bool.and_eq_true] at h
    simp only [nextSeq]
    split
    · exact hrest
    · simp [Seq.allowed, h]
  | dataIn =>
    simp only [nextSeq]
    split
    · split
      · next ho => simp [Seq.allowed, ho.1]
      · exact hrest
    · exact h

theorem firstSeq_allowed (i : Instr) : (firstSeq (opField (encode i))).allowed (opField (encode i)) = true := by
  cases i <;> simp only [encode, opField_packWord] <;> decide

theorem firstSeq_dirAt (i : Instr) : (firstSeq (opField (encode i))).dirAt (opField (encode i)) = .output := by
  cases i <;> simp only [encode, opField_packWord] <;> decide

/-! ### The pins at rest between positions -/

/-- Every position that lowers the clock raises it again (R110, R112). -/
theorem positionEvents_sclk {s : State} (h : s.sclk = true) : (positionEvents s).sclk = true := by
  cases hp : s.seq.phase with
  | idle => simpa [positionEvents, hp] using h
  | start | gap => by_cases ho : s.op = opReadBurst <;> simpa [positionEvents, hp, ho] using h
  | addr | dataOut => simp [positionEvents, hp, tickOut_eq]
  | dataIn => simp [positionEvents, hp, tickIn_eq]
  | pin => by_cases ho : s.op = opCsRelease <;> simpa [positionEvents, hp, ho] using h

/-- After an in cell SDO has the direction of the next position: the last cell of a burst drives it again (R133). -/
theorem tickIn_sdoDir {s : State} {k : Fin Config.burstLen} {i : Fin Config.dataW} (hq : s.seq = ⟨.dataIn, k, i⟩)
    (hd : s.sdoDir = s.seq.dirAt s.op) : (tickIn s).sdoDir = (nextSeq s.op s.seq).dirAt s.op := by
  rw [hq] at hd ⊢
  by_cases ho : s.op = opReadBurst
  · by_cases hi : i = 0
    · by_cases hk : k = 7 <;> simp [tickIn_eq, hq, hd, ho, hi, hk, nextSeq, Seq.dirAt, Seq.atRest]
    · simp [tickIn_eq, hq, hd, ho, hi, nextSeq, Seq.dirAt]
  · simp [tickIn_eq, hd, ho, Seq.dirAt]

/-- The direction events of a burst stand where its data phase begins and ends (R25, R133). -/
theorem positionEvents_sdoDir {s : State} (hd : s.sdoDir = s.seq.dirAt s.op) :
    (positionEvents s).sdoDir = (nextSeq s.op s.seq).dirAt s.op := by
  rcases hq : s.seq with ⟨phase, k, i⟩
  have hout (hne : phase ≠ .dataIn) : s.sdoDir = .output := by rw [hd, hq]; simp [Seq.dirAt, hne]
  cases phase with
  | idle => simp [positionEvents, nextSeq, hq, Seq.dirAt, Seq.atRest, hout]
  | start => by_cases ho : s.op = opReadBurst <;> simp [positionEvents, nextSeq, hq, Seq.dirAt, hout, ho]
  | addr => by_cases hi : i = 0 <;> simp [positionEvents, nextSeq, hq, tickOut_eq, Seq.dirAt, hout, hi]
  | gap =>
    by_cases ho : s.op = opReadBurst
    · have hw : opReadBurst ≠ opWriteReg := by decide
      simp [positionEvents, nextSeq, hq, Seq.dirAt, ho, hw]
    · simp [positionEvents, hq, Seq.dirAt, hout, ho]
  | dataOut => by_cases hi : i = 0 <;> simp [positionEvents, nextSeq, hq, tickOut_eq, Seq.dirAt, hout, hi, Seq.atRest]
  | dataIn => simpa [positionEvents, hq] using tickIn_sdoDir hq hd
  | pin => by_cases ho : s.op = opCsRelease <;> simp [positionEvents, nextSeq, hq, Seq.dirAt, hout, ho, Seq.atRest]

theorem acceptCommand_pinsAtRest (i : Instr) {s : State} (hb : s.busy = false) (h : PinsAtRest s) :
    PinsAtRest (acceptCommand (encode i) s) := by
  obtain ⟨hclk, hdir, hncs, hsclk, hsdi, -⟩ := h
  have hout : s.sdoDir = .output := by simpa [Seq.dirAt, phase_idle_of_not_busy hb] using hdir
  rw [acceptCommand_eq]
  exact ⟨hclk, hout.trans (firstSeq_dirAt i).symm, hncs, hsclk, hsdi, firstSeq_allowed i⟩

theorem tick_pinsAtRest {s : State} (h : PinsAtRest s) : PinsAtRest (tick s) := by
  cases hb : s.busy with
  | false => simpa [tick, hb] using h
  | true =>
    obtain ⟨hclk, hdir, hncs, hsclk, hsdi, hseq⟩ := h
    obtain ⟨hwire, -, hop, hncs', hsclk', hsdi'⟩ := tick_pinState hb
    simp only [State.wire, Wire.mk.injEq] at hwire
    obtain ⟨-, hclk', -, hdir'⟩ := hwire
    refine ⟨hclk'.trans (positionEvents_sclk hclk), ?_, hncs'.trans hncs, hsclk'.trans hsclk, hsdi'.trans hsdi, ?_⟩
    · rw [hdir', tick_seq hb, hop, positionEvents_sdoDir hdir]
    · rw [tick_seq hb, hop]
      exact nextSeq_allowed hseq

/-- Settles O28: acceptance stands at a first position of its command, and a position moves the pins as the next one asks. -/
theorem stepKeepsPinsAtRest : Obligations.StepKeepsPinsAtRest := by
  unfold Obligations.StepKeepsPinsAtRest
  intro s t hs h
  refine step_keeps (P := PinsAtRest) ?_ ?_ ?_ ?_ ?_ h hs
  · exact fun u rest hu => { hu with }
  · intro u x hu
    rw [record_eq]
    exact { hu with }
  · exact fun u rs hu => { hu with }
  · exact fun u i => acceptCommand_pinsAtRest i
  · exact fun u => tick_pinsAtRest

/-- Settles O27: each value is the one reset gives. -/
theorem resetPinsAtRest : Obligations.ResetPinsAtRest := by
  unfold Obligations.ResetPinsAtRest
  exact ⟨rfl, rfl, rfl, rfl, rfl, rfl⟩

/-! ### SDO at the bit sent last -/

/-- The bit sent last before the next position: the one an out position just sent, elsewhere bit 0 (R31, R38). -/
theorem lastBit_nextSeq (op : BitVec 3) (q : Seq) :
    (nextSeq op q).lastBit = if q.phase = .addr ∨ q.phase = .dataOut then q.i else 0 := by
  have hback (i : Fin Config.dataW) (hi : i ≠ 0) : (if i - 1 = topBit then 0 else i - 1 + 1) = i := by
    revert i
    decide
  rcases q with ⟨phase, k, i⟩
  cases phase with
  | idle | start | pin => rfl
  | gap =>
    simp only [nextSeq]
    split <;> rfl
  | addr | dataOut =>
    by_cases hi : i = 0
    · subst hi
      rfl
    · simp only [nextSeq, if_neg hi]
      exact hback i hi
  | dataIn =>
    simp only [nextSeq]
    split
    · split <;> rfl
    · rfl

/-- An out position leaves SDO at the bit it sends, and no other position touches SDO or `TXSR` (R38, R110). -/
theorem positionEvents_sdo {s : State} (h : SdoHoldsLastBit s) :
    (positionEvents s).sdo = bitOf (positionEvents s).txsr (nextSeq s.op s.seq).lastBit := by
  unfold SdoHoldsLastBit at h
  rw [lastBit_nextSeq]
  cases hp : s.seq.phase with
  | addr | dataOut => simp [positionEvents, hp, tickOut_eq]
  | idle => simpa [positionEvents, hp, Seq.lastBit] using h
  | start | gap => by_cases ho : s.op = opReadBurst <;> simpa [positionEvents, hp, ho, Seq.lastBit] using h
  | dataIn => simpa [positionEvents, hp, tickIn_eq, Seq.lastBit] using h
  | pin => by_cases ho : s.op = opCsRelease <;> simpa [positionEvents, hp, ho, Seq.lastBit] using h

theorem lastBit_firstSeq (op : BitVec 3) : (firstSeq op).lastBit = 0 := by
  unfold firstSeq
  split_ifs <;> rfl

theorem acceptCommand_sdoHoldsLastBit (cw : CmdWord) {s : State} (hb : s.busy = false) (h : SdoHoldsLastBit s) :
    SdoHoldsLastBit (acceptCommand cw s) := by
  have hlast : s.seq.lastBit = 0 := by simp [Seq.lastBit, phase_idle_of_not_busy hb]
  unfold SdoHoldsLastBit at h ⊢
  rw [acceptCommand_eq, lastBit_firstSeq, ← hlast]
  exact h

theorem tick_sdoHoldsLastBit {s : State} (h : SdoHoldsLastBit s) : SdoHoldsLastBit (tick s) := by
  cases hb : s.busy with
  | false => simpa [tick, hb] using h
  | true =>
    obtain ⟨hwire, htxsr, -⟩ := tick_pinState hb
    simp only [State.wire, Wire.mk.injEq] at hwire
    obtain ⟨-, -, hsdo, -⟩ := hwire
    unfold SdoHoldsLastBit
    rw [hsdo, htxsr, tick_seq hb]
    exact positionEvents_sdo h

/-- Settles O29: acceptance leaves SDO and `TXSR` alone, and a position leaves SDO at the bit the next one calls last. -/
theorem stepKeepsSdoAtLastBit : Obligations.StepKeepsSdoAtLastBit := by
  unfold Obligations.StepKeepsSdoAtLastBit
  refine ⟨rfl, fun s t hs h => step_keeps (P := SdoHoldsLastBit) ?_ ?_ ?_ ?_ ?_ h hs⟩
  · exact fun u rest hu => hu
  · intro u x hu
    rw [record_eq]
    exact hu
  · exact fun u rs hu => hu
  · exact fun u i => acceptCommand_sdoHoldsLastBit (encode i)
  · exact fun u => tick_sdoHoldsLastBit

/-! ### The marks only grow -/

/-- `ys` holds every violation of `xs`, and no repeats where `xs` has none (R33, R171). -/
def ViolationsGrow (xs ys : List Violation) : Prop := (∀ x ∈ xs, x ∈ ys) ∧ (xs.Nodup → ys.Nodup)

theorem record_violationsGrow {xs : List Violation} {s : State} (x : Violation) (h : ViolationsGrow xs s.viol) :
    ViolationsGrow xs (record x s).viol :=
  ⟨fun y hy => (mem_record x y s).2 (.inl (h.1 y hy)), fun hn => record_nodup x s (h.2 hn)⟩

theorem checkEntry_violationsGrow {xs : List Violation} {s : State} (cw : CmdWord) (h : ViolationsGrow xs s.viol) :
    ViolationsGrow xs (checkEntry cw s).viol := by
  obtain ⟨-, e⟩ | ⟨-, -, e⟩ | ⟨-, -, e⟩ := checkEntry_cases cw s <;> rw [e]
  · exact record_violationsGrow _ h
  · exact record_violationsGrow _ h
  · exact h

theorem acceptCommand_violationsGrow {xs : List Violation} {s : State} (cw : CmdWord) (h : ViolationsGrow xs s.viol) :
    ViolationsGrow xs (acceptCommand cw s).viol := by
  rw [acceptCommand_eq]
  dsimp only
  split
  · exact checkEntry_violationsGrow cw h
  · exact h

theorem tick_viol (s : State) : (tick s).viol = s.viol := by
  obtain ⟨-, -, hviol, -⟩ := positionEvents_frame s
  obtain ⟨-, h⟩ | ⟨-, h⟩ | ⟨-, h⟩ := tick_cases s <;> simp [h, hviol]

/-- Settles O22: the marks are written where a violation is recorded and at acceptance, and both only add. -/
theorem violationsSticky : Obligations.ViolationsSticky := by
  unfold Obligations.ViolationsSticky
  intro s t h
  refine step_keeps (P := fun u => ViolationsGrow s.viol u.viol) ?_ ?_ ?_ ?_ ?_ h ⟨fun x hx => hx, id⟩
  · exact fun u rest hu => hu
  · exact fun u x => record_violationsGrow x
  · exact fun u rs hu => hu
  · exact fun u i _ => acceptCommand_violationsGrow (encode i)
  · exact fun u hu => (tick_viol u).symm ▸ hu

/-! ### Registers no command has written -/

/-- What the written marks say of the registers between `s` and a later state `t`: no mark of `s` is gone, and a register
without a mark in `t` holds what it held in `s` (R28, R30, R36). -/
structure MarksExplain (s t : State) : Prop where
  rxMark : s.rxWritten = true → t.rxWritten = true
  rxValue : t.rxWritten = false → t.rx = s.rx
  bMark : ∀ k : Fin Config.burstLen, s.bWritten[k.val] = true → t.bWritten[k.val] = true
  bValue : ∀ k : Fin Config.burstLen, t.bWritten[k.val] = false → t.b[k.val] = s.b[k.val]

theorem MarksExplain.refl (s : State) : MarksExplain s s := ⟨id, fun _ => rfl, fun _ => id, fun _ _ => rfl⟩

/-- The statement reads the result registers and their marks alone. -/
theorem MarksExplain.congr {s t u : State} (h : MarksExplain s t) (hrx : u.rx = t.rx) (hrxw : u.rxWritten = t.rxWritten)
    (hb : u.b = t.b) (hbw : u.bWritten = t.bWritten) : MarksExplain s u := by
  obtain ⟨h1, h2, h3, h4⟩ := h
  constructor
  · rwa [hrxw]
  · rwa [hrxw, hrx]
  · rwa [hbw]
  · rwa [hbw, hb]

theorem MarksExplain.setRx {s t : State} (h : MarksExplain s t) (r : Byte) : MarksExplain s (setRx r t) :=
  ⟨fun _ => rfl, nofun, h.bMark, h.bValue⟩

theorem MarksExplain.setB {s t : State} (h : MarksExplain s t) (k : Fin Config.burstLen) (r : Byte) :
    MarksExplain s (setB k r t) := by
  refine ⟨h.rxMark, h.rxValue, fun j hj => ?_, fun j hj => ?_⟩
  · by_cases hk : k.val = j.val
    · simp [hk]
    · simpa [Vector.getElem_set, hk] using h.bMark j hj
  · by_cases hk : k.val = j.val
    · simp [hk] at hj
    · simp only [setB_bWritten, setB_b, Vector.getElem_set, if_neg hk] at hj ⊢
      exact h.bValue j hj

/-- An in position writes no result register, or, after the last cell, `RX` or the `B[k]` it stands at (R113, R133). -/
theorem tickIn_marksExplain {s t : State} (h : MarksExplain s t) : MarksExplain s (tickIn t) := by
  by_cases hi : t.seq.i = 0
  · by_cases ho : t.op = opReadBurst
    · refine (h.setB t.seq.k (placeBit t.rxsr t.seq.i (t.answer 0))).congr ?_ ?_ ?_ ?_ <;> simp [tickIn_eq, hi, ho]
    · refine (h.setRx (placeBit t.rxsr t.seq.i (t.answer 0))).congr ?_ ?_ ?_ ?_ <;> simp [tickIn_eq, hi, ho]
  · refine h.congr ?_ ?_ ?_ ?_ <;> simp [tickIn_eq, hi]

theorem positionEvents_marksExplain {s t : State} (h : MarksExplain s t) : MarksExplain s (positionEvents t) := by
  have out (x : Byte) : MarksExplain s (tickOut x t) := by
    rw [tickOut_eq]
    exact h.congr rfl rfl rfl rfl
  unfold positionEvents
  split
  · exact h
  · split <;> exact h.congr rfl rfl rfl rfl
  · exact out _
  · split <;> exact h.congr rfl rfl rfl rfl
  · exact out _
  · exact tickIn_marksExplain h
  · split <;> exact h.congr rfl rfl rfl rfl

theorem tick_marksExplain {s t : State} (h : MarksExplain s t) : MarksExplain s (tick t) := by
  have hp := positionEvents_marksExplain h
  obtain ⟨-, e⟩ | ⟨-, e⟩ | ⟨-, e⟩ := tick_cases t <;> rw [e]
  · exact h
  · exact hp.congr rfl rfl rfl rfl
  · exact hp.congr rfl rfl rfl rfl

/-- Settles O33: only an in position writes a result register, and it sets the register's mark with it. -/
theorem unwrittenRegistersUntouched : Obligations.UnwrittenRegistersUntouched := by
  unfold Obligations.UnwrittenRegistersUntouched
  intro s t h
  have hs : MarksExplain s t := by
    refine step_keeps (P := MarksExplain s) ?_ ?_ ?_ ?_ ?_ h (.refl s)
    · exact fun u rest hu => hu.congr rfl rfl rfl rfl
    · exact fun u x hu => hu.congr (by simp) (by simp) (by simp) (by simp)
    · exact fun u rs hu => hu.congr rfl rfl rfl rfl
    · intro u i _ hu
      rw [acceptCommand_eq]
      exact hu.congr rfl rfl rfl rfl
    · exact fun u => tick_marksExplain
  exact ⟨hs.rxMark, hs.rxValue, fun k => ⟨hs.bMark k, hs.bValue k⟩⟩

/-! ### What a completed command leaves in the latches -/

theorem bodyOf_latches (i : Instr) (s : State) :
    (bodyOf i s).op = s.op ∧ (bodyOf i s).a = s.a ∧ (bodyOf i s).v = s.v := by
  cases i <;>
    simp [bodyOf, csAssertBody, csReleaseBody, shiftOutBody, shiftInBody, readRegBody, writeRegBody, readBurstBody,
      sendByte_eq, receiveByte_eq, receiveBurst_eq]

theorem completed_latches (i : Instr) (s : State) :
    packWord (completed i s).op (completed i s).a (completed i s).v = encode i := by
  obtain ⟨hop, ha, hv⟩ := bodyOf_latches i (acceptCommand (encode i) s)
  rw [completed, completeCommand_op, completeCommand_a, completeCommand_v, hop, ha, hv, acceptCommand_eq]
  exact packWord_fields (encode i)

/-- Settles O15: acceptance loads the latches, no event writes them, and completion clears the byte in transit. -/
theorem latchesHoldCommandWord : Obligations.LatchesHoldCommandWord := by
  unfold Obligations.LatchesHoldCommandWord
  exact fun i s hi hb => ⟨_, exec_completes hb hi, completed_latches i s, rfl⟩

/-! ### Which commands have a direction event or a sample -/

theorem mode_not_mem_outByteEvents (p : Pin) (d : Dir) (x : Byte) : Event.mode p d ∉ outByteEvents x := by
  simp [outByteEvents, outCellEvents]

theorem sample_not_mem_outByteEvents (y : Level) (x : Byte) : Event.sample y ∉ outByteEvents x := by
  simp [outByteEvents, outCellEvents]

theorem mode_not_mem_inByteEvents (p : Pin) (d : Dir) (x : Byte) : Event.mode p d ∉ inByteEvents x := by
  simp [inByteEvents, inCellEvents]

/-- Only the frame of a burst holds a direction event (R25). -/
theorem readBurst_of_mode_mem {i : Instr} {s : State} {p : Pin} {d : Dir} (h : Event.mode p d ∈ commandEvents i s) :
    ∃ addr, i = .readBurst addr := by
  cases i with
  | readBurst addr => exact ⟨addr, rfl⟩
  | csAssert | csRelease => simp [commandEvents] at h
  | shiftOut b => exact absurd h (mode_not_mem_outByteEvents p d b)
  | shiftIn => exact absurd h (mode_not_mem_inByteEvents p d _)
  | readReg addr =>
    simp [commandEvents, readFrame, mode_not_mem_outByteEvents, mode_not_mem_inByteEvents] at h
  | writeReg addr v => simp [commandEvents, writeFrame, mode_not_mem_outByteEvents] at h

/-- Only commands that take bytes in sample SDI (R153). -/
theorem takesBytesIn_of_sample_mem {i : Instr} {s : State} {x : Level} (h : Event.sample x ∈ commandEvents i s) :
    i = .shiftIn ∨ (∃ addr, i = .readReg addr) ∨ ∃ addr, i = .readBurst addr := by
  cases i with
  | shiftIn => exact .inl rfl
  | readReg addr => exact .inr (.inl ⟨addr, rfl⟩)
  | readBurst addr => exact .inr (.inr ⟨addr, rfl⟩)
  | csAssert | csRelease => simp [commandEvents] at h
  | shiftOut b => exact absurd h (sample_not_mem_outByteEvents x b)
  | writeReg addr v => simp [commandEvents, writeFrame, sample_not_mem_outByteEvents] at h

/-- Settles O34: a refused operand leaves no event; a completed command has the events of its frame. -/
theorem onlyTheseCommandsTouch : Obligations.OnlyTheseCommandsTouch := by
  unfold Obligations.OnlyTheseCommandsTouch
  intro i s t h
  obtain ⟨-, e⟩ | ⟨-, -, addr, e⟩ | ⟨-, -, e⟩ := exec_cases i s
  · rw [e] at h
    cases h
  · rw [e, Host.Outcome.next.injEq] at h
    subst h
    exact ⟨by simp, [], by simp, by simp, by simp⟩
  · rw [e, Host.Outcome.next.injEq] at h
    subst h
    refine ⟨fun hn => ?_, commandEvents i s, completed_trace i s, fun ⟨p, d, hm⟩ => readBurst_of_mode_mem hm,
      fun ⟨x, hx⟩ => takesBytesIn_of_sample_mem hx⟩
    by_contra! hi
    exact hn (by rw [completed_ncs, if_neg hi.1, if_neg hi.2])

/-! ### The target's answers as the bytes that come in -/

/-- The levels of a byte in the order they travel, bit 7 first (R53, R113). -/
def travelBits (d : Byte) : List Level := [7, 6, 5, 4, 3, 2, 1, 0].map d.getLsbD

theorem travelBits_length (d : Byte) : (travelBits d).length = 8 := rfl

theorem travelBits_getElem? (d : Byte) (i : Fin Config.dataW) : (travelBits d)[topBit.val - i.val]? = some (bitOf d i) := by
  fin_cases i <;> rfl

theorem byte_ext {x y : Byte} (h : ∀ i : Fin Config.dataW, bitOf x i = bitOf y i) : x = y :=
  BitVec.eq_of_getLsbD_eq fun i hi => h ⟨i, hi⟩

/-- A byte pending at place `n` of the answers is the byte made of the answers from there (R26, R113). -/
theorem answerByte_of_drop {s : State} {n : Nat} {d : Byte} {rest : List Level}
    (h : s.sdi.drop n = travelBits d ++ rest) : s.answerByte n = d := by
  refine byte_ext fun i => ?_
  have hlt : topBit.val - i.val < (travelBits d).length := by
    rw [travelBits_length, topBit_eq]
    exact Nat.lt_succ_of_le (Nat.sub_le _ _)
  have hget : s.sdi[n + (topBit.val - i.val)]? = some (bitOf d i) := by
    rw [← List.getElem?_drop, h, List.getElem?_append_left hlt, travelBits_getElem?]
  rw [bitOf_answerByte, State.answer, hget, Option.getD_some]

/-- The bytes after the first `k` of a run of pending bytes. -/
theorem drop_flatMap_travelBits (ds : List Byte) (rest : List Level) (k : Nat) (hk : k ≤ ds.length) :
    (ds.flatMap travelBits ++ rest).drop (8 * k) = (ds.drop k).flatMap travelBits ++ rest := by
  induction k generalizing ds with
  | zero => rfl
  | succ k ih =>
    cases ds with
    | nil => simp at hk
    | cons d ds =>
      rw [Nat.mul_succ, Nat.add_comm, ← List.drop_drop, List.flatMap_cons, List.append_assoc,
        List.drop_left' (travelBits_length d), List.drop_succ_cons]
      exact ih ds (Nat.le_of_succ_le_succ hk)

/-- Eight pending bytes are the bytes of a burst (R133). -/
theorem answerBurst_of_pending {s : State} {ds : Vector Byte Config.burstLen} {rest : List Level}
    (h : s.sdi = ds.toList.flatMap travelBits ++ rest) : s.answerBurst = ds := by
  ext k hk : 1
  have hlt : k < ds.toList.length := by simpa using hk
  rw [answerBurst_get s ⟨k, hk⟩]
  refine answerByte_of_drop (rest := (ds.toList.drop (k + 1)).flatMap travelBits ++ rest) ?_
  rw [h, drop_flatMap_travelBits _ _ _ hlt.le, List.drop_eq_getElem_cons hlt, List.flatMap_cons, List.append_assoc,
    Vector.getElem_toList]

theorem completed_shiftIn_reads (s : State) :
    (completed .shiftIn s).rx = s.answerByte 0 ∧ (completed .shiftIn s).sdi = s.sdi.drop 8 := by
  simp [completed, bodyOf, shiftInBody, acceptCommand_eq, receiveByte_eq, answerByte_eq]

theorem completed_readReg_reads (addr : Byte) (s : State) :
    (completed (.readReg addr) s).rx = s.answerByte 0 ∧ (completed (.readReg addr) s).sdi = s.sdi.drop 8 := by
  simp [completed, bodyOf, readRegBody, acceptCommand_eq, sendByte_eq, receiveByte_eq, answerByte_eq]

theorem completed_readBurst_reads (addr : Byte) (s : State) :
    (completed (.readBurst addr) s).b = s.answerBurst ∧ (completed (.readBurst addr) s).sdi = s.sdi.drop 64 := by
  simp [completed, bodyOf, readBurstBody, acceptCommand_eq, sendByte_eq, receiveBurst_eq, State.answerBurst, answerByte_eq]

/-- Settles O46: what comes in is made of the answers pending, and these are any bytes. -/
theorem targetDecidesWhatIsRead : Obligations.TargetDecidesWhatIsRead := by
  unfold Obligations.TargetDecidesWhatIsRead
  intro addr d ds rest s hb ha
  have ha' := (addrInRange_iff addr).2 ha
  have hbyte : (travelBits d ++ rest).drop 8 = rest := List.drop_left' (travelBits_length d)
  have hlen : ds.toList.length = 8 := Vector.length_toList
  have hburst : (ds.toList.flatMap travelBits ++ rest).drop 64 = rest := by
    rw [drop_flatMap_travelBits ds.toList rest 8 hlen.ge, List.drop_of_length_le hlen.le]
    rfl
  refine ⟨⟨_, exec_completes hb rfl, ?_⟩, ⟨_, exec_completes hb ha', ?_⟩, ⟨_, exec_completes hb ha', ?_⟩⟩
  · obtain ⟨hrx, hsdi⟩ := completed_shiftIn_reads { s with sdi := travelBits d ++ rest }
    exact ⟨hrx.trans (answerByte_of_drop rfl), hsdi.trans hbyte⟩
  · obtain ⟨hrx, hsdi⟩ := completed_readReg_reads addr { s with sdi := travelBits d ++ rest }
    exact ⟨hrx.trans (answerByte_of_drop rfl), hsdi.trans hbyte⟩
  · obtain ⟨hB, hsdi⟩ := completed_readBurst_reads addr { s with sdi := ds.toList.flatMap travelBits ++ rest }
    exact ⟨hB.trans (answerBurst_of_pending rfl), hsdi.trans hburst⟩

/-! ### Reset, construction, and the read of `BUSY` -/

/-- A permutation gives distinct roles distinct identifiers (R21). -/
theorem pinsGiven_distinct : Pins.given.distinct = true := by
  simp [Pins.distinct, Pins.given, Config.pinNumbering.injective.eq_iff]

/-- Settles O35: the identifiers are distinct whatever the numbering, and the other values are those of the reset state. -/
theorem resetValues : Obligations.ResetValues := by
  unfold Obligations.ResetValues
  exact ⟨pinsGiven_distinct, rfl, rfl, rfl, rfl, rfl, rfl, rfl, rfl, rfl, rfl, rfl, rfl, by decide⟩

/-- Settles O36: each event of construction writes one level or direction and stands in the trace. -/
theorem constructionReachesReset : Obligations.ConstructionReachesReset := by
  unfold Obligations.ConstructionReachesReset
  intro s
  simp [drivePinsAtConstruction, pinWrite, pinMode, emit, State.reset]

/-- Settles O51: `BUSY` is read off the phase, and a step of an idle block presents the read. -/
theorem busyReadReturnsFlag : Obligations.BusyReadReturnsFlag := by
  unfold Obligations.BusyReadReturnsFlag
  intro s
  have hflag : s.busy = decide (s.seq.phase ≠ .idle) := by simp [State.busy, bne, Bool.beq_eq_decide_eq]
  refine ⟨by rw [← hflag]; rfl, fun rest hb hi => ?_⟩
  rw [step_presents hb hi, ← hb]
  rfl

end Sys2Proof.Machine

namespace Sys2Proof.Machine

/-! ### The family of spec/20_memory.md: the host's list of actions -/

/-! What an action does is independent of what the host does next, and it leaves an idle block idle. -/

/-- A register command whose address is out of its domain only marks V5 (R90). -/
theorem performRegisterCommand_wide (i : Instr) {addr : Byte} (body : State → State) {s : State}
    (hb : s.busy = false) (ha : addressFits addr = false) :
    performRegisterCommand i addr body s = .next (record (.addressOutOfRange addr) s) := by
  simp [performRegisterCommand, hb, ha]

/-- A command that is not well-formed marks V5 with one and the same address in every idle block. -/
theorem exec_of_not_wellFormed {i : Instr} (hi : i.wellFormed = false) :
    ∃ addr : Byte, ∀ s : State, s.busy = false → exec i s = .next (record (.addressOutOfRange addr) s) := by
  cases i with
  | readReg addr => exact ⟨addr, fun s hb => performRegisterCommand_wide _ readRegBody hb hi⟩
  | writeReg addr v => exact ⟨addr, fun s hb => performRegisterCommand_wide _ writeRegBody hb hi⟩
  | readBurst addr => exact ⟨addr, fun s hb => performRegisterCommand_wide _ readBurstBody hb hi⟩
  | _ => simp [Instr.wellFormed] at hi

theorem exec_setInbox {i : Instr} {s t : State} (hb : s.busy = false) (h : exec i s = .next t) (xs : List HostAction) :
    exec i { s with inbox := xs } = .next { t with inbox := xs } := by
  cases hi : i.wellFormed with
  | true =>
    obtain rfl : completed i s = t := by simpa [exec_completes hb hi] using h
    rw [exec_completes (s := { s with inbox := xs }) hb hi, completed_setInbox]
  | false =>
    obtain ⟨addr, hmark⟩ := exec_of_not_wellFormed hi
    obtain rfl : record (.addressOutOfRange addr) s = t := by simpa [hmark s hb] using h
    rw [hmark { s with inbox := xs } hb, record_setInbox]

theorem hostReg_setInbox (r : HostReg) (s : State) (xs : List HostAction) :
    State.hostReg { s with inbox := xs } r = s.hostReg r := by
  cases r <;> rfl

theorem hostRegWritten_setInbox (r : HostReg) (s : State) (xs : List HostAction) :
    State.hostRegWritten { s with inbox := xs } r = s.hostRegWritten r := by
  cases r <;> rfl

theorem hostRead_setInbox (r : HostReg) (s : State) (xs : List HostAction) :
    hostRead r { s with inbox := xs } = { hostRead r s with inbox := xs } := by
  simp only [hostRead, hostReg_setInbox, hostRegWritten_setInbox]
  split
  · rfl
  · rw [record_setInbox]

theorem presentWord_of_decode_error {cw : CmdWord} {e : DecodeError} {s : State} (hb : s.busy = false)
    (hd : decode cw = .error e) : presentWord cw s = .next (record (.reservedCommand cw) s) := by
  simp [presentWord, hb, hd]

/-- A presented word is decoded and run, or marked as reserved, without a look at what the host does next. -/
theorem presentWord_setInbox {cw : CmdWord} {s t : State} (hb : s.busy = false) (h : presentWord cw s = .next t)
    (xs : List HostAction) : presentWord cw { s with inbox := xs } = .next { t with inbox := xs } := by
  cases hd : decode cw with
  | ok i =>
    rw [presentWord_of_decode hb hd] at h
    rw [presentWord_of_decode (s := { s with inbox := xs }) hb hd]
    exact exec_setInbox hb h xs
  | error e =>
    obtain rfl : record (.reservedCommand cw) s = t := by simpa [presentWord_of_decode_error hb hd] using h
    rw [presentWord_of_decode_error (s := { s with inbox := xs }) hb hd, record_setInbox]

theorem present_setInbox {x : HostAction} {s t : State} (hb : s.busy = false) (h : present x s = .next t)
    (xs : List HostAction) : present x { s with inbox := xs } = .next { t with inbox := xs } := by
  cases x with
  | word cw => exact presentWord_setInbox hb h xs
  | call i => exact exec_setInbox hb h xs
  | read r =>
    cases h
    exact congrArg Host.Outcome.next (hostRead_setInbox r s xs)
  | waitUs _ | waitMs _ | readBusy =>
    cases h
    rfl
  | intruder cw => cases h

theorem hostRead_seq_inbox (r : HostReg) (s : State) :
    (hostRead r s).seq = s.seq ∧ (hostRead r s).inbox = s.inbox := by
  unfold hostRead
  split
  · exact ⟨rfl, rfl⟩
  · exact ⟨record_seq _ s, record_inbox _ s⟩

/-- An action that an idle block completes leaves it idle, with the host's list as it was (R32, R182). -/
theorem present_keeps_idle {x : HostAction} {s t : State} (hb : s.busy = false) (h : present x s = .next t) :
    t.busy = false ∧ t.inbox = s.inbox := by
  have busy_of_seq {u : State} (hu : u.seq = s.seq) : u.busy = false := by rwa [State.busy, hu]
  obtain rfl | ⟨y, rfl⟩ | ⟨r, rfl⟩ | rfl | ⟨i, -, rfl⟩ := present_next hb h
  · exact ⟨hb, rfl⟩
  · exact ⟨busy_of_seq (record_seq y s), record_inbox y s⟩
  · obtain ⟨hseq, hinbox⟩ := hostRead_seq_inbox r s
    exact ⟨busy_of_seq hseq, hinbox⟩
  · exact ⟨hb, rfl⟩
  · exact ⟨completed_busy i s, completed_inbox i s⟩

/-! The list as presented, and the list as stepped through. -/

theorem presentAll_cons_next {x : HostAction} {xs : List HostAction} {s t : State}
    (h : presentAll (x :: xs) s = .next t) : ∃ u, present x s = .next u ∧ presentAll xs u = .next t := by
  unfold presentAll at h
  split at h
  · next u hu => exact ⟨u, hu, h⟩
  · cases h
  · cases h

theorem run_succ_of_step {M : Host.Core} {s t : M.State} (h : M.step s = .next t) (n : Nat) :
    M.run (n + 1) s = M.run n t := by
  simp only [Host.Core.run, h]

/-- Settles O26, by induction on the list: a step presents its first action, which does the same whatever stands behind
it, and leaves an idle block whose list is the rest. -/
theorem hostListRunsInOrder : Obligations.HostListRunsInOrder := by
  unfold Obligations.HostListRunsInOrder
  intro xs
  induction xs with
  | nil =>
    intro s t _ hi h
    have hs : { s with inbox := [] } = s := by rw [← hi]
    exact (congrArg Host.Outcome.next hs).trans h
  | cons x xs ih =>
    intro s t hb hi h
    obtain ⟨u, hu, hrest⟩ := presentAll_cons_next h
    obtain ⟨hub, hui⟩ := present_keeps_idle hb hu
    have hstep : step { s with inbox := x :: xs } = .next { u with inbox := xs } :=
      (step_presents (s := { s with inbox := x :: xs }) hb rfl).trans (present_setInbox hb hu xs)
    calc Host.Core.run Sys2Proof.core (xs.length + 1) { s with inbox := x :: xs }
      _ = Host.Core.run Sys2Proof.core xs.length { u with inbox := xs } :=
        run_succ_of_step (M := Sys2Proof.core) hstep xs.length
      _ = .next t := ih u t hub (hui.trans hi) hrest

end Sys2Proof.Machine

namespace Sys2Proof.Machine

/-! ### The family of spec/30_encoding.md: the command word, its refusals, the opcode table, the bus reset -/

/-! The decoder by code (R87, R88). -/

theorem packWord_of_fields {op : BitVec 3} {addr : Addr} {data : Byte} {w : CmdWord} (ho : opField w = op)
    (ha : addrField w = addr) (hd : dataField w = data) : packWord op addr data = w := by
  rw [← ho, ← ha, ← hd, packWord_fields]

theorem requireZeroAddr_eq_ok {w : CmdWord} {r : Except DecodeError Instr} {i : Instr} :
    requireZeroAddr w r = .ok i ↔ addrField w = 0 ∧ r = .ok i := by
  by_cases h : addrField w = 0#7 <;> simp [requireZeroAddr, h]

theorem requireZeroData_eq_ok {w : CmdWord} {r : Except DecodeError Instr} {i : Instr} :
    requireZeroData w r = .ok i ↔ dataField w = 0 ∧ r = .ok i := by
  by_cases h : dataField w = 0#8 <;> simp [requireZeroData, h]

theorem requireZeroAddr_refuses {w : CmdWord} {r : Except DecodeError Instr} :
    (∃ e, requireZeroAddr w r = .error e) ↔ addrField w ≠ 0 ∨ ∃ e, r = .error e := by
  by_cases h : addrField w = 0#7 <;> simp [requireZeroAddr, h]

theorem requireZeroData_refuses {w : CmdWord} {r : Except DecodeError Instr} :
    (∃ e, requireZeroData w r = .error e) ↔ dataField w ≠ 0 ∨ ∃ e, r = .error e := by
  by_cases h : dataField w = 0#8 <;> simp [requireZeroData, h]

/-- The decoder's answer for each of the eight codes (R88, R90). -/
theorem decode_cases (w : CmdWord) :
    (opField w = 0b000#3 ∧ decode w = .error .reservedOp) ∨
    (opField w = 0b001#3 ∧ decode w = requireZeroAddr w (requireZeroData w (.ok .csAssert))) ∨
    (opField w = 0b010#3 ∧ decode w = requireZeroAddr w (requireZeroData w (.ok .csRelease))) ∨
    (opField w = 0b011#3 ∧ decode w = requireZeroAddr w (.ok (.shiftOut (dataField w)))) ∨
    (opField w = 0b100#3 ∧ decode w = requireZeroAddr w (requireZeroData w (.ok .shiftIn))) ∨
    (opField w = 0b101#3 ∧ decode w = requireZeroData w (.ok (.readReg ((addrField w).setWidth Config.dataW)))) ∨
    (opField w = 0b110#3 ∧ decode w = .ok (.writeReg ((addrField w).setWidth Config.dataW) (dataField w))) ∨
    (opField w = 0b111#3 ∧ decode w = requireZeroData w (.ok (.readBurst ((addrField w).setWidth Config.dataW)))) := by
  have codes : ∀ op : BitVec 3, op = 0b000#3 ∨ op = 0b001#3 ∨ op = 0b010#3 ∨ op = 0b011#3 ∨ op = 0b100#3 ∨
      op = 0b101#3 ∨ op = 0b110#3 ∨ op = 0b111#3 := by decide
  obtain h | h | h | h | h | h | h | h := codes (opField w) <;>
    simp [decode, h, opCsAssert, opCsRelease, opShiftOut, opShiftIn, opReadReg, opWriteReg, opReadBurst]

/-! Encoding and decoding are inverse. -/

/-- Settles O1: the fields of a packed word are the packed fields, and a 7-bit address survives the narrowing. -/
theorem encodeThenDecode : Obligations.EncodeThenDecode := by
  unfold Obligations.EncodeThenDecode
  intro i hi
  cases i with
  | csAssert | csRelease | shiftIn => rfl
  | shiftOut b =>
    simp [encode, decode, requireZeroAddr, opCsAssert, opCsRelease, opShiftOut]
  | readReg addr =>
    have haddr := narrow_wide addr ((addrInRange_iff addr).mp hi)
    simp [encode, decode, requireZeroData, opCsAssert, opCsRelease, opShiftOut, opShiftIn, opReadReg, haddr]
  | writeReg addr v =>
    have haddr := narrow_wide addr ((addrInRange_iff addr).mp hi)
    simp [encode, decode, opCsAssert, opCsRelease, opShiftOut, opShiftIn, opReadReg, opWriteReg, haddr]
  | readBurst addr =>
    have haddr := narrow_wide addr ((addrInRange_iff addr).mp hi)
    simp [encode, decode, requireZeroData, opCsAssert, opCsRelease, opShiftOut, opShiftIn, opReadReg, opWriteReg,
      opReadBurst, haddr]

/-- Settles O2: for each code, an accepted word has zero in the fields its command does not use, so the command's word is
made of the same three fields. -/
theorem decodeThenEncode : Obligations.DecodeThenEncode := by
  unfold Obligations.DecodeThenEncode
  intro w i hi
  obtain ⟨ho, h⟩ | ⟨ho, h⟩ | ⟨ho, h⟩ | ⟨ho, h⟩ | ⟨ho, h⟩ | ⟨ho, h⟩ | ⟨ho, h⟩ | ⟨ho, h⟩ := decode_cases w <;>
    simp only [h, requireZeroAddr_eq_ok, requireZeroData_eq_ok] at hi
  · cases hi
  · obtain ⟨ha, hd, ⟨⟩⟩ := hi
    exact ⟨rfl, packWord_of_fields ho ha hd⟩
  · obtain ⟨ha, hd, ⟨⟩⟩ := hi
    exact ⟨rfl, packWord_of_fields ho ha hd⟩
  · obtain ⟨ha, ⟨⟩⟩ := hi
    exact ⟨rfl, packWord_of_fields ho ha rfl⟩
  · obtain ⟨ha, hd, ⟨⟩⟩ := hi
    exact ⟨rfl, packWord_of_fields ho ha hd⟩
  · obtain ⟨hd, ⟨⟩⟩ := hi
    exact ⟨wide_inRange _, packWord_of_fields ho (wide_narrow _).symm hd⟩
  · obtain ⟨⟩ := hi
    exact ⟨wide_inRange _, packWord_of_fields ho (wide_narrow _).symm rfl⟩
  · obtain ⟨hd, ⟨⟩⟩ := hi
    exact ⟨wide_inRange _, packWord_of_fields ho (wide_narrow _).symm hd⟩

/-- Settles O3: the refusal of each code is the disjunction of the zero checks its command makes. -/
theorem reservedWordsRefused : Obligations.ReservedWordsRefused := by
  unfold Obligations.ReservedWordsRefused
  intro w
  obtain ⟨ho, h⟩ | ⟨ho, h⟩ | ⟨ho, h⟩ | ⟨ho, h⟩ | ⟨ho, h⟩ | ⟨ho, h⟩ | ⟨ho, h⟩ | ⟨ho, h⟩ := decode_cases w <;>
    simp [ho, h, requireZeroAddr_refuses, requireZeroData_refuses]

/-! The opcode table (R88). -/

/-- A row of the opcode table by its fields: the code is fixed, and a field the command does not use is fixed at zero. -/
def codeRow (name : String) (op : BitVec 3) (usesAddr usesData : Bool) : OpcodeRow where
  mnemonic := name
  mask := packWord 7#3 (if usesAddr then 0 else 0x7F#7) (if usesData then 0 else 0xFF#8)
  pattern := packWord op 0 0

theorem opcodeTable_eq : opcodeTable =
    [codeRow "CS_ASSERT" opCsAssert false false, codeRow "CS_RELEASE" opCsRelease false false,
     codeRow "SHIFT_OUT" opShiftOut false true, codeRow "SHIFT_IN" opShiftIn false false,
     codeRow "READ_REG" opReadReg true false, codeRow "WRITE_REG" opWriteReg true true,
     codeRow "READ_BURST" opReadBurst true false] := by
  decide

/-- A word matches such a row when it has the row's code and zero in each field the command does not use. -/
theorem codeRow_fits (name : String) (op : BitVec 3) (usesAddr usesData : Bool) (w : CmdWord) :
    (codeRow name op usesAddr usesData).fits w = true ↔
      opField w = op ∧ (usesAddr = false → addrField w = 0) ∧ (usesData = false → dataField w = 0) := by
  have allOp (x : BitVec 3) : x &&& 7#3 = x := BitVec.and_allOnes
  have allAddr (x : Addr) : x &&& 0x7F#7 = x := BitVec.and_allOnes
  have allData (x : Byte) : x &&& 0xFF#8 = x := BitVec.and_allOnes
  rw [OpcodeRow.fits, codeRow, beq_iff_eq]
  conv_lhs => rw [← packWord_fields w]
  rw [packWord_and, packWord_inj, allOp]
  cases usesAddr <;> cases usesData <;> simp [allAddr, allData]

/-- The word of a well-formed command matches the row of its mnemonic. -/
theorem encode_fits (i : Instr) : Laws.EncodingForm.Statement i := by
  cases i with
  | csAssert => exact Laws.EncodingForm.csAssert
  | csRelease => exact Laws.EncodingForm.csRelease
  | shiftOut b => exact Laws.EncodingForm.shiftOut b
  | shiftIn => exact Laws.EncodingForm.shiftIn
  | readReg addr => exact Laws.EncodingForm.readReg addr
  | writeReg addr v => exact Laws.EncodingForm.writeReg addr v
  | readBurst addr => exact Laws.EncodingForm.readBurst addr

/-- No two rows of the table share a mnemonic. -/
theorem opcodeTable_mnemonic_inj :
    ∀ r ∈ opcodeTable, ∀ r' ∈ opcodeTable, r.mnemonic = r'.mnemonic → r = r' := by
  decide

/-- A word that matches a row is the word of a well-formed command with the row's mnemonic. -/
theorem exists_encode_of_fits {r : OpcodeRow} {w : CmdWord} (hr : r ∈ opcodeTable) (h : r.fits w = true) :
    ∃ i : Instr, i.wellFormed = true ∧ encode i = w ∧ r.mnemonic = i.mnemonic := by
  have narrow := (wide_narrow (addrField w)).symm
  have inRange := wide_inRange (addrField w)
  simp only [opcodeTable_eq, List.mem_cons, List.not_mem_nil, or_false] at hr
  obtain rfl | rfl | rfl | rfl | rfl | rfl | rfl := hr <;> obtain ⟨ho, ha, hd⟩ := (codeRow_fits _ _ _ _ w).mp h
  · exact ⟨.csAssert, rfl, packWord_of_fields ho (ha rfl) (hd rfl), rfl⟩
  · exact ⟨.csRelease, rfl, packWord_of_fields ho (ha rfl) (hd rfl), rfl⟩
  · exact ⟨.shiftOut (dataField w), rfl, packWord_of_fields ho (ha rfl) rfl, rfl⟩
  · exact ⟨.shiftIn, rfl, packWord_of_fields ho (ha rfl) (hd rfl), rfl⟩
  · exact ⟨.readReg _, inRange, packWord_of_fields ho narrow (hd rfl), rfl⟩
  · exact ⟨.writeReg _ (dataField w), inRange, packWord_of_fields ho narrow rfl, rfl⟩
  · exact ⟨.readBurst _, inRange, packWord_of_fields ho narrow (hd rfl), rfl⟩

/-- A row matches exactly the words that decode to a command with its mnemonic. -/
theorem fits_iff_decode {r : OpcodeRow} (hr : r ∈ opcodeTable) (w : CmdWord) :
    r.fits w = true ↔ ∃ i, decode w = .ok i ∧ r.mnemonic = i.mnemonic := by
  constructor
  · intro h
    obtain ⟨i, hi, rfl, hm⟩ := exists_encode_of_fits hr h
    exact ⟨i, encodeThenDecode i hi, hm⟩
  · rintro ⟨i, hi, hm⟩
    obtain ⟨hwf, rfl⟩ := decodeThenEncode w i hi
    obtain ⟨r', hr', hm', hfits⟩ := encode_fits i hwf
    rwa [opcodeTable_mnemonic_inj r hr r' hr' (hm.trans hm'.symm)]

/-- The table has exactly one row of each command's mnemonic. -/
theorem filter_mnemonic (i : Instr) :
    ∃ r, opcodeTable.filter (fun r => r.mnemonic = i.mnemonic) = [r] ∧ r.mnemonic = i.mnemonic := by
  cases i <;> exact ⟨_, rfl, rfl⟩

/-- Settles O4: a row matches a word when the word decodes to a command of its mnemonic, which no refused word does and
which for an accepted word one row does. -/
theorem opcodeTableAgrees : Obligations.OpcodeTableAgrees := by
  unfold Obligations.OpcodeTableAgrees
  intro w
  constructor
  · intro i hi
    have hfilter : opcodeTable.filter (fun r => r.fits w) = opcodeTable.filter (fun r => r.mnemonic = i.mnemonic) :=
      List.filter_congr fun r hr => Bool.eq_iff_iff.mpr (by simp [fits_iff_decode hr, hi])
    rw [hfilter]
    exact filter_mnemonic i
  · intro e he
    refine List.filter_eq_nil_iff.mpr fun r hr => ?_
    simp [fits_iff_decode hr, he]

/-- Settles O5: the ten words are closed, and the decoder computes on them. -/
theorem specWordsDecode : Obligations.SpecWordsDecode := by
  unfold Obligations.SpecWordsDecode
  decide

/-! The address byte (R89, R134). -/

/-- The address byte is the address with the direction in bit 7. -/
theorem addressByte_eq_or (dir : Bool) (addr : Addr) :
    addressByte dir addr = (if dir then 0x80#8 else 0#8) ||| addr.setWidth 8 := by
  cases dir <;> revert addr <;> decide

theorem addressByte_setWidth (dir : Bool) (addr : Addr) : (addressByte dir addr).setWidth 7 = addr :=
  BitVec.setWidth_append_eq_right

/-- Settles O6: the byte is the direction above the seven bits of the address. -/
theorem addressByteLaw : Obligations.AddressByteLaw := by
  unfold Obligations.AddressByteLaw
  intro addr
  refine ⟨?_, addressByte_eq_or true addr, fun dir => ⟨bitOf_addressByte_top dir addr, addressByte_setWidth dir addr⟩⟩
  rw [addressByte_eq_or, if_neg Bool.false_ne_true, BitVec.zero_or]

/-! What has no command word is only marked (R90, R166). -/

/-- Settles O17: a wide operand fails the range check before the command is accepted, and recording touches `G_VIOL` alone. -/
theorem wideAddressMarksOnly : Obligations.WideAddressMarksOnly := by
  unfold Obligations.WideAddressMarksOnly
  intro addr v s hb ha i hi
  have hfits : addressFits addr = false :=
    Bool.eq_false_iff.mpr fun h => absurd ((addressFits_iff addr).mp h) (Nat.not_lt.mpr ha)
  have hexec : exec i s = .next (record (.addressOutOfRange addr) s) := by
    simp only [List.mem_cons, List.not_mem_nil, or_false] at hi
    obtain rfl | rfl | rfl := hi <;> exact performRegisterCommand_wide _ _ hb hfits
  exact ⟨_, hexec, record_eq _ s, fun x => mem_record _ x s⟩

/-- Settles O20: a refused word goes no further than the port, where it is recorded. -/
theorem reservedWordMarksOnly : Obligations.ReservedWordMarksOnly := by
  unfold Obligations.ReservedWordMarksOnly
  intro cw e s hb hd
  exact ⟨_, presentWord_of_decode_error hb hd, record_eq _ s, fun x => mem_record _ x s⟩

/-! The bus reset (R94, R187). -/

theorem presentAll_call {i : Instr} {s : State} (hb : s.busy = false) (hi : i.wellFormed = true) (xs : List HostAction) :
    presentAll (.call i :: xs) s = presentAll xs (completed i s) := by
  simp only [presentAll, present, exec_completes hb hi]

theorem presentAll_waitMs (n : Nat) (xs : List HostAction) (s : State) :
    presentAll (.waitMs n :: xs) s = presentAll xs s := rfl

/-- Chip-select high, then low, each as a whole command: half of the bus reset. -/
def pulsed (s : State) : State := completed .csAssert (completed .csRelease s)

theorem presentAll_busReset {s : State} (hb : s.busy = false) : presentAll busReset s = .next (pulsed (pulsed s)) := by
  have hrelease : Instr.csRelease.wellFormed = true := rfl
  have hassert : Instr.csAssert.wellFormed = true := rfl
  simp only [busReset, presentAll_call, presentAll_waitMs, hb, hrelease, hassert, completed_busy]
  rfl

theorem pulsed_trace (s : State) : (pulsed s).trace = s.trace ++ [.write .ncs true, .write .ncs false] := by
  simp [pulsed, completed_trace, commandEvents]

theorem pulsed_wire (s : State) : (pulsed s).wire = { s.wire with ncs := false } := by
  simp [pulsed, wire_command, commandEvents, Wire.afterAll, Wire.after]

theorem pulsed_txnDone (s : State) : (pulsed s).txnDone = false := by
  rw [pulsed, completed_txnDone, completed_txnDone]
  rfl

theorem pulsed_viol (s : State) : (pulsed s).viol = s.viol := by
  rw [pulsed, completed_viol, completed_viol]
  rfl

/-- Settles O48: the bus reset is two pulses of chip-select, and a pulse moves no other pin and marks nothing. -/
theorem busResetTogglesChipSelect : Obligations.BusResetTogglesChipSelect := by
  unfold Obligations.BusResetTogglesChipSelect
  intro s hb
  have htrace : (pulsed (pulsed s)).trace =
      s.trace ++ [.write .ncs true, .write .ncs false, .write .ncs true, .write .ncs false] := by
    simp [pulsed_trace]
  have hwire : (pulsed (pulsed s)).wire = { s.wire with ncs := false } := by
    simp only [pulsed_wire]
  have hviol : (pulsed (pulsed s)).viol = s.viol := (pulsed_viol _).trans (pulsed_viol s)
  exact ⟨_, presentAll_busReset hb, htrace, congrArg Wire.ncs hwire, congrArg Wire.sclk hwire, congrArg Wire.sdo hwire,
    congrArg Wire.sdoDir hwire, completed_busy _ _, pulsed_txnDone _, hviol⟩

end Sys2Proof.Machine

namespace Sys2Proof.Machine

/-! ### The family of spec/40_bit_transport.md: the two byte commands, the shape of every command's events, what a sampled
bit reaches -/

/-! The state each command leaves (R111, R113, R131 to R133, R150, R151), for any operand. -/

/-- The codes of the command map (R88), as literals a simplifier can tell apart. -/
theorem codes_eq : opCsAssert = 1#3 ∧ opCsRelease = 2#3 ∧ opShiftOut = 3#3 ∧ opShiftIn = 4#3 ∧ opReadReg = 5#3 ∧
    opWriteReg = 6#3 ∧ opReadBurst = 7#3 := ⟨rfl, rfl, rfl, rfl, rfl, rfl, rfl⟩

/-- What acceptance writes for a word given by its fields, the marks in the words of R166 and R169. -/
theorem acceptCommand_packWord (op : BitVec 3) (addr : Addr) (data : Byte) (s : State) :
    acceptCommand (packWord op addr data) s =
      { s with
        op := op, a := addr, v := data, seq := firstSeq op
        viol := if isWireOp op then s.violAfterEntry (packWord op addr data) else s.viol } := by
  rw [acceptCommand_eq, opField_packWord, addrField_packWord, dataField_packWord, checkEntry_viol]

theorem completed_csAssert (s : State) :
    completed .csAssert s =
      { s with
        ncs := false, seq := Seq.atRest, op := opCsAssert, a := 0, v := 0, rxsr := 0
        trace := s.trace ++ [.write .ncs false], returned := s.returned ++ [.nothing] } := by
  simp [completed, bodyOf, csAssertBody, encode, acceptCommand_packWord, pinWrite, emit, completeCommand, isWireOp,
    isRegisterOp, resultOf, codes_eq]

theorem completed_csRelease (s : State) :
    completed .csRelease s =
      { s with
        ncs := true, txnDone := false, seq := Seq.atRest, op := opCsRelease, a := 0, v := 0, rxsr := 0
        trace := s.trace ++ [.write .ncs true], returned := s.returned ++ [.nothing] } := by
  simp [completed, bodyOf, csReleaseBody, encode, acceptCommand_packWord, pinWrite, emit, completeCommand, isWireOp,
    isRegisterOp, resultOf, codes_eq]

theorem completed_shiftOut (b : Byte) (s : State) :
    completed (.shiftOut b) s =
      { s with
        txsr := b, sclk := true, sdo := bitOf b 0, seq := Seq.atRest, op := opShiftOut, a := 0, v := b, rxsr := 0
        viol := s.violAfterEntry (encode (.shiftOut b)), trace := s.trace ++ outByteEvents b
        returned := s.returned ++ [.nothing] } := by
  simp [completed, bodyOf, shiftOutBody, encode, acceptCommand_packWord, sendByte_eq, completeCommand, isWireOp,
    isRegisterOp, resultOf, codes_eq]

theorem completed_shiftIn (s : State) :
    completed .shiftIn s =
      { s with
        rx := s.answerByte 0, rxWritten := true, sclk := true, seq := Seq.atRest, op := opShiftIn, a := 0, v := 0
        rxsr := 0, sdi := s.sdi.drop 8, sampled := s.sampled + 8
        viol := s.violAfterEntry (encode .shiftIn), trace := s.trace ++ inByteEvents (s.answerByte 0)
        returned := s.returned ++ [.byte (s.answerByte 0)] } := by
  simp [completed, bodyOf, shiftInBody, encode, acceptCommand_packWord, receiveByte_eq, answerByte_eq, setRx,
    completeCommand, isWireOp, isRegisterOp, resultOf, codes_eq]

theorem completed_readReg (addr : Byte) (s : State) :
    completed (.readReg addr) s =
      { s with
        txsr := addressByte false (addr.setWidth 7), rx := s.answerByte 0, rxWritten := true, sclk := true
        sdo := bitOf (addressByte false (addr.setWidth 7)) 0, txnDone := true, seq := Seq.atRest
        op := opReadReg, a := addr.setWidth 7, v := 0, rxsr := 0, sdi := s.sdi.drop 8, sampled := s.sampled + 8
        viol := s.violAfterEntry (encode (.readReg addr))
        trace := s.trace ++ readFrame (addr.setWidth 7) (s.answerByte 0)
        returned := s.returned ++ [.byte (s.answerByte 0)] } := by
  simp [completed, bodyOf, readRegBody, encode, acceptCommand_packWord, sendByte_eq, receiveByte_eq, answerByte_eq, setRx,
    delay, emit, readFrame, completeCommand, isWireOp, isRegisterOp, resultOf, codes_eq]

theorem completed_writeReg (addr v : Byte) (s : State) :
    completed (.writeReg addr v) s =
      { s with
        txsr := v, sclk := true, sdo := bitOf v 0, txnDone := true, seq := Seq.atRest
        op := opWriteReg, a := addr.setWidth 7, v := v, rxsr := 0
        viol := s.violAfterEntry (encode (.writeReg addr v)), trace := s.trace ++ writeFrame (addr.setWidth 7) v
        returned := s.returned ++ [.nothing] } := by
  simp [completed, bodyOf, writeRegBody, encode, acceptCommand_packWord, sendByte_eq, delay, emit, writeFrame,
    completeCommand, isWireOp, isRegisterOp, resultOf, codes_eq]

theorem completed_readBurst (addr : Byte) (s : State) :
    completed (.readBurst addr) s =
      { s with
        txsr := addressByte false (addr.setWidth 7), b := s.answerBurst, bWritten := Vector.replicate 8 true
        sclk := true, sdo := bitOf (addressByte false (addr.setWidth 7)) 0, sdoDir := .output, txnDone := true
        seq := Seq.atRest, op := opReadBurst, a := addr.setWidth 7, v := 0, rxsr := 0
        sdi := s.sdi.drop 64, sampled := s.sampled + 64, viol := s.violAfterEntry (encode (.readBurst addr))
        trace := s.trace ++ burstFrame (addr.setWidth 7) s.answerBurst
        returned := s.returned ++ [.burst s.answerBurst] } := by
  simp [completed, bodyOf, readBurstBody, encode, acceptCommand_packWord, sendByte_eq, receiveBurst_eq, State.answerBurst,
    answerByte_eq, delay, emit, pinMode, burstFrame, completeCommand, isWireOp, isRegisterOp, resultOf, codes_eq]

/-! SHIFT_OUT and SHIFT_IN: word, next state, positions. -/

theorem acceptCommand_seq (i : Instr) (s : State) :
    (acceptCommand (encode i) s).seq = firstSeq (opField (encode i)) := by rw [acceptCommand_eq]

theorem acceptCommand_op (i : Instr) (s : State) : (acceptCommand (encode i) s).op = opField (encode i) := by
  rw [acceptCommand_eq]

theorem positionsOf_phase_ne_idle (i : Instr) : ∀ q ∈ positionsOf i, q.phase ≠ .idle := by
  cases i <;> simp only [positionsOf] <;> decide

/-- A command whose positions come in the order of its list rests after the last of them. -/
theorem sequencerVisits_accepted {i : Instr} {s : State}
    (h : positions (positionsOf i).length (acceptCommand (encode i) s) = positionsOf i) :
    SequencerVisits (acceptCommand (encode i) s) (positionsOf i) := by
  refine ⟨h, positionsOf_phase_ne_idle i, ?_, ?_⟩ <;> rw [ticks_accepted]
  · rfl
  · exact completed_busy i s

/-- Settles O9: the command sends the byte it latched, and its positions are those of one out byte. -/
theorem shiftOutRule : Obligations.ShiftOutRule := by
  unfold Obligations.ShiftOutRule
  intro b s hb
  have hseq : (acceptCommand (encode (.shiftOut b)) s).seq = ⟨.dataOut, 0, topBit⟩ := by
    rw [acceptCommand_seq, encode, opField_packWord]
    rfl
  refine ⟨rfl, ⟨_, exec_completes hb rfl, ?_⟩, sequencerVisits_accepted (dataOut_byte _ hseq).2⟩
  rw [completed_shiftOut]
  rfl

/-- The byte of the next eight answers has the first of them in bit 7 (R113). -/
theorem getLsbD_answerByte (s : State) (n : Fin 8) : (s.answerByte 0).getLsbD (7 - n.val) = s.answer n.val := by
  have h := bitOf_answerByte s 0 n.rev
  simpa [bitOf, Fin.val_rev, show 7 - (7 - n.val) = n.val by omega] using h

/-- Settles O10: `RX` is the byte of the next eight answers, and the positions are those of one in byte. -/
theorem shiftInRule : Obligations.ShiftInRule := by
  unfold Obligations.ShiftInRule
  refine ⟨rfl, fun s hb => ?_⟩
  have hseq : (acceptCommand (encode .shiftIn) s).seq = ⟨.dataIn, 0, topBit⟩ := acceptCommand_seq .shiftIn s
  have hop : (acceptCommand (encode .shiftIn) s).op ≠ opReadBurst := by
    rw [acceptCommand_op]
    decide
  refine ⟨⟨_, exec_completes hb rfl, fun n => ?_, ?_⟩, sequencerVisits_accepted (dataIn_byte _ hseq hop).2⟩
  · rw [completed_shiftIn]
    exact getLsbD_answerByte s n
  · rw [completed_shiftIn]
    rfl

/-! The clock edges of one byte (R114): the first falling write is an edge exactly when the clock was high before. -/

theorem clockEdges_outByte (w : Wire) (x : Byte) :
    (false :: clockEdges w (outByteEvents x)).drop (if w.sclk = true then 1 else 0) =
      (List.replicate 8 [false, true]).flatten := by
  cases h : w.sclk <;>
    simp [outByteEvents, outCellEvents, bitsDown_eq, clockEdges, Wire.after, h, List.replicate]

theorem clockEdges_inByte (w : Wire) (x : Byte) :
    (false :: clockEdges w (inByteEvents x)).drop (if w.sclk = true then 1 else 0) =
      (List.replicate 8 [false, true]).flatten := by
  cases h : w.sclk <;>
    simp [inByteEvents, inCellEvents, bitsDown_eq, clockEdges, Wire.after, h, List.replicate]

/-- Settles O42: the events of each command are one byte's, out or in. -/
theorem byteClockEdges : Obligations.ByteClockEdges := by
  unfold Obligations.ByteClockEdges
  intro b s hb p hp
  simp only [List.mem_cons, List.not_mem_nil, or_false] at hp
  obtain rfl | rfl := hp
  · have hfall : untilFall (outByteEvents b) = [] := by simpa using untilFall_outByte b []
    refine ⟨_, _, exec_completes hb rfl, completed_trace _ s, ?_, clockEdges_outByte s.wire b, ?_⟩
    · rw [completed_shiftOut]
    · simp [commandEvents, countEvents_outByte, hfall, countEvents]
  · have hfall : untilFall (inByteEvents (s.answerByte 0)) = [.delay .tInSettle] := by
      simpa using untilFall_inByte (s.answerByte 0) []
    refine ⟨_, _, exec_completes hb rfl, completed_trace _ s, ?_, clockEdges_inByte s.wire _, ?_⟩
    · rw [completed_shiftIn]
    · simp [commandEvents, countEvents_inByte, hfall, countEvents, EventCounts.ofEvent, EventCounts.add]

/-! The kinds and the order of a command's events (R115). -/

theorem shape_outByte (x : Byte) : (outByteEvents x).map Event.shape = outByteEvents 0 := by
  simp [outByteEvents, outCellEvents, bitsDown_eq, Event.shape, bitOf]

theorem shape_inByte (x : Byte) : (inByteEvents x).map Event.shape = inByteEvents 0 := by
  simp [inByteEvents, inCellEvents, bitsDown_eq, Event.shape, bitOf]

/-- The frame a code asks for (R81, R84 to R86, R150, R151) with every data level at 0. -/
def shapeOfCode (op : BitVec 3) : List Event :=
  if op = opCsAssert then [.write .ncs false]
  else if op = opCsRelease then [.write .ncs true]
  else if op = opShiftOut then outByteEvents 0
  else if op = opShiftIn then inByteEvents 0
  else if op = opReadReg then .delay .tStart :: outByteEvents 0 ++ .delay .tPhase :: inByteEvents 0
  else if op = opWriteReg then .delay .tStart :: outByteEvents 0 ++ .delay .tPhase :: outByteEvents 0
  else .delay .tStart :: .mode .sdo .output :: outByteEvents 0
    ++ .mode .sdo .input :: .delay .tPhase :: bytesUp.flatMap (fun _ => inByteEvents 0) ++ [.mode .sdo .output]

theorem shape_commandEvents (i : Instr) (s : State) :
    (commandEvents i s).map Event.shape = shapeOfCode (opField (encode i)) := by
  cases i with
  | csAssert | csRelease => rfl
  | shiftOut b => simp [commandEvents, shape_outByte, encode, shapeOfCode, codes_eq]
  | shiftIn => exact shape_inByte _
  | readReg addr =>
    simp [commandEvents, readFrame, shape_outByte, shape_inByte, Event.shape, encode, shapeOfCode, codes_eq]
  | writeReg addr v => simp [commandEvents, writeFrame, shape_outByte, Event.shape, encode, shapeOfCode, codes_eq]
  | readBurst addr =>
    simp [commandEvents, burstFrame, shape_outByte, shape_inByte, Event.shape, List.map_flatMap, encode, shapeOfCode,
      codes_eq]

/-- Settles O43: the shape of a command's events is the one its code asks for. -/
theorem eventShapeDependsOnCodeOnly : Obligations.EventShapeDependsOnCodeOnly := by
  unfold Obligations.EventShapeDependsOnCodeOnly
  intro i j s₁ s₂ hi hj hcode hb₁ hb₂
  refine ⟨_, _, _, _, exec_completes hb₁ hi, exec_completes hb₂ hj, completed_trace i s₁, completed_trace j s₂, ?_⟩
  rw [shape_commandEvents, shape_commandEvents, hcode]

/-! What the target's answers reach (R26, R115, R167). -/

/-- The entry check does not look at the answers. -/
theorem violAfterEntry_setSdi (s : State) (answers : List Level) (cw : CmdWord) :
    { s with sdi := answers }.violAfterEntry cw = s.violAfterEntry cw := by
  simp [State.violAfterEntry]

theorem completed_setSdi (i : Instr) (s : State) (answers : List Level) :
    let u := completed i { s with sdi := answers }
    u = { completed i s with rx := u.rx, b := u.b, returned := u.returned, trace := u.trace, sdi := u.sdi } := by
  cases i <;>
    simp only [completed_csAssert, completed_csRelease, completed_shiftOut, completed_shiftIn, completed_readReg,
      completed_writeReg, completed_readBurst, violAfterEntry_setSdi]

/-- The two events are equal, or both are samples. -/
def EqualButSampled (e f : Event) : Prop := e = f ∨ ((∃ x, e = .sample x) ∧ ∃ y, f = .sample y)

theorem EqualButSampled.all_refl (es : List Event) : List.Forall₂ EqualButSampled es es :=
  List.forall₂_same.2 fun _ _ => .inl rfl

theorem inByte_equalButSampled (x y : Byte) : List.Forall₂ EqualButSampled (inByteEvents x) (inByteEvents y) := by
  simp [inByteEvents, inCellEvents, bitsDown_eq, EqualButSampled]

/-- Two runs of one command differ in the levels sampled alone. -/
theorem commandEvents_equalButSampled (i : Instr) (s t : State) :
    List.Forall₂ EqualButSampled (commandEvents i s) (commandEvents i t) := by
  cases i with
  | csAssert | csRelease | shiftOut | writeReg => exact EqualButSampled.all_refl _
  | shiftIn => exact inByte_equalButSampled _ _
  | readReg addr =>
    exact List.rel_append (EqualButSampled.all_refl _) (.cons (.inl rfl) (inByte_equalButSampled _ _))
  | readBurst addr =>
    have hbytes : List.Forall₂ EqualButSampled (bytesUp.flatMap fun k => inByteEvents s.answerBurst[k.val])
        (bytesUp.flatMap fun k => inByteEvents t.answerBurst[k.val]) :=
      List.rel_flatMap (R := Eq) (List.forall₂_same.2 fun _ _ => rfl)
        (by rintro k _ rfl; exact inByte_equalButSampled _ _)
    exact List.rel_append
      (List.rel_append (EqualButSampled.all_refl _) (.cons (.inl rfl) (.cons (.inl rfl) hbytes)))
      (EqualButSampled.all_refl _)

/-- Settles O44: the answers fill the result registers and the samples of the trace, and nothing else reads them. -/
theorem sampledBitsOnlyReturned : Obligations.SampledBitsOnlyReturned := by
  unfold Obligations.SampledBitsOnlyReturned
  intro i s answers hi hb
  exact ⟨_, _, _, _, exec_completes hb hi, exec_completes (s := { s with sdi := answers }) hb hi,
    completed_setSdi i s answers, completed_trace i s, completed_trace i _, commandEvents_equalButSampled i s _⟩

end Sys2Proof.Machine

namespace Sys2Proof.Machine

/-! ### The family of spec/41_register_access.md: READ_REG, WRITE_REG, READ_BURST -/

/-! The positions of a register command: the ten of the address phase, then its data phase (R131 to R133). -/

theorem positions_addressPhase {s : State} (h : s.seq = ⟨.start, 0, topBit⟩) (n : Nat) :
    positions (10 + n) s =
      ⟨.start, 0, topBit⟩ :: bytePositions .addr 0 ++
        ⟨.gap, 0, topBit⟩ :: positions n { addressPhase s with seq := dataStart s.op } := by
  rw [positions_add, ticks_addressPhase s h, positions_add 1 9, positions_add 8 1, ticks_start s h,
    (addr_byte _ rfl).1, (addr_byte _ rfl).2]
  simp [positions, h]

/-- A register command visits its positions when its data phase, reached from the address phase, visits its own. -/
theorem sequencerVisits_register {i : Instr} {s : State} {data : List Seq}
    (hfirst : firstSeq (opField (encode i)) = ⟨.start, 0, topBit⟩)
    (hlist : positionsOf i =
      ⟨.start, 0, topBit⟩ :: bytePositions .addr 0 ++ ⟨.gap, 0, topBit⟩ :: data)
    (hdata : ∀ u : State, u.seq = dataStart (opField (encode i)) → u.op = opField (encode i) →
      positions data.length u = data) :
    SequencerVisits (acceptCommand (encode i) s) (positionsOf i) := by
  have hseq := (acceptCommand_seq i s).trans hfirst
  have hop := acceptCommand_op i s
  have hlen : (positionsOf i).length = 10 + data.length := by
    simp [hlist, bytePositions, bitsDown_eq]
    omega
  apply sequencerVisits_accepted
  have hvisits := hdata { addressPhase (acceptCommand (encode i) s) with seq := dataStart (acceptCommand (encode i) s).op }
    (congrArg dataStart hop) ((addressPhase_op _).trans hop)
  rw [hlen, positions_addressPhase hseq, hvisits, hlist]

theorem sequencerVisits_readReg (addr : Byte) (s : State) :
    SequencerVisits (acceptCommand (encode (.readReg addr)) s) (positionsOf (.readReg addr)) := by
  have hop : opField (encode (.readReg addr)) = opReadReg := opField_packWord ..
  refine sequencerVisits_register (hop ▸ rfl) rfl fun u hseq ho => ?_
  rw [hop] at hseq ho
  exact (dataIn_byte u hseq (by rw [ho]; decide)).2

theorem sequencerVisits_writeReg (addr v : Byte) (s : State) :
    SequencerVisits (acceptCommand (encode (.writeReg addr v)) s) (positionsOf (.writeReg addr v)) := by
  have hop : opField (encode (.writeReg addr v)) = opWriteReg := opField_packWord ..
  refine sequencerVisits_register (hop ▸ rfl) rfl fun u hseq _ => ?_
  rw [hop] at hseq
  exact (dataOut_byte u hseq).2

theorem sequencerVisits_readBurst (addr : Byte) (s : State) :
    SequencerVisits (acceptCommand (encode (.readBurst addr)) s) (positionsOf (.readBurst addr)) := by
  have hop : opField (encode (.readBurst addr)) = opReadBurst := opField_packWord ..
  refine sequencerVisits_register (hop ▸ rfl) rfl fun u hseq ho => ?_
  rw [hop] at hseq ho
  exact (burstIn_all u hseq ho).2

/-! READ_REG and WRITE_REG: word, next state, marks, positions. -/

/-- The command word has no room for an operand of `0x80` or more (R90). -/
theorem addressFits_eq_false {addr : Byte} (h : 0x80 ≤ addr.toNat) : addressFits addr = false := by
  simpa [addressFits] using h

/-- Settles O11: the command leaves the address byte sent and the byte of the next eight answers. -/
theorem readRegRule : Obligations.ReadRegRule := by
  unfold Obligations.ReadRegRule
  intro addr s hb
  refine ⟨fun ha => ⟨rfl, ⟨_, exec_completes hb ((addrInRange_iff addr).2 ha), fun n => ?_, ?_⟩,
    sequencerVisits_readReg addr s⟩,
    fun hw => performRegisterCommand_wide _ readRegBody hb (addressFits_eq_false hw)⟩
  · rw [completed_readReg]
    exact getLsbD_answerByte s n
  · rw [completed_readReg, addressByte_read addr ha]
    rfl

/-- Settles O12: the command leaves the value byte sent, and samples nothing. -/
theorem writeRegRule : Obligations.WriteRegRule := by
  unfold Obligations.WriteRegRule
  intro addr v s hb
  refine ⟨fun ha => ⟨rfl, ⟨_, exec_completes hb ((addrInRange_iff addr).2 ha), ?_⟩,
    sequencerVisits_writeReg addr v s⟩,
    fun hw => performRegisterCommand_wide _ writeRegBody hb (addressFits_eq_false hw)⟩
  rw [completed_writeReg]
  rfl

/-! READ_BURST: the eight bytes, and the direction events position by position (R133). -/

/-- Byte `k` of the next 64 answers has the first of its eight in bit 7 (R113, R133). -/
theorem getLsbD_answerBurst (s : State) (k n : Fin 8) :
    s.answerBurst[k.val].getLsbD (7 - n.val) = s.answer (8 * k.val + n.val) := by
  have h := bitOf_answerByte s (Config.dataW * k.val) n.rev
  rw [answerBurst_get]
  simpa [bitOf, Fin.val_rev, show 7 - (7 - n.val) = n.val by omega] using h

/-- Moving on and completing append no event: the events of a position are all that a busy tick adds (R31). -/
theorem tick_trace {s : State} (hb : s.busy = true) : (tick s).trace = (positionEvents s).trace := by
  obtain ⟨h, -⟩ | ⟨-, h⟩ | ⟨-, h⟩ := tick_cases s
  · simp [hb] at h
  · rw [h, completeCommand_trace]
  · rw [h]

/-- The direction events R133 gives a burst at its positions. -/
def burstModes (q : Seq) : List Event :=
  if q = ⟨.start, 0, topBit⟩ then [.mode .sdo .output]
  else if q = ⟨.gap, 0, topBit⟩ then [.mode .sdo .input]
  else if q = ⟨.dataIn, lastByte, 0⟩ then [.mode .sdo .output]
  else []

/-- An out position has no direction event. -/
theorem tickOut_modes (x : Byte) (s : State) :
    ∃ es, (tickOut x s).trace = s.trace ++ es ∧ es.filter Event.isMode = [] := by
  rw [tickOut_eq]
  exact ⟨_, rfl, rfl⟩

/-- An in position of a burst has a direction event after the last bit of the last byte alone. -/
theorem tickIn_modes {s : State} {k : Fin Config.burstLen} {i : Fin Config.dataW} (ho : s.op = opReadBurst)
    (hq : s.seq = ⟨.dataIn, k, i⟩) :
    ∃ es, (tickIn s).trace = s.trace ++ es ∧ es.filter Event.isMode = burstModes s.seq := by
  by_cases hlast : i = 0 ∧ k = lastByte
  · obtain ⟨rfl, rfl⟩ := hlast
    exact ⟨inCellEvents (s.answer 0) ++ [.mode .sdo .output], by simp [tickIn_eq, hq, ho], by rw [hq]; rfl⟩
  · have hnone : burstModes s.seq = [] := by simpa [burstModes, hq, and_comm] using hlast
    refine ⟨(if s.seq.i = topBit then [.delay .tInSettle] else []) ++ inCellEvents (s.answer 0), ?_, ?_⟩
    · simpa [tickIn_eq, ho, hq] using hlast
    · rw [hnone]
      split <;> rfl

/-- Position by position, a burst has the direction events of R133 and no other (R25). -/
theorem positionEvents_modes {s : State} (ho : s.op = opReadBurst) (ha : s.seq.allowed s.op = true) :
    ∃ es, (positionEvents s).trace = s.trace ++ es ∧ es.filter Event.isMode = burstModes s.seq := by
  rcases hq : s.seq with ⟨phase, k, i⟩
  rw [hq] at ha
  cases phase with
  | idle => exact ⟨[], by simp [positionEvents, hq], rfl⟩
  | start =>
    obtain ⟨⟨-, rfl⟩, rfl⟩ : (isRegisterOp s.op = true ∧ k = 0) ∧ i = topBit := by simpa [Seq.allowed] using ha
    exact ⟨[.delay .tStart, .mode .sdo .output], by simp [positionEvents, hq, ho, delay, emit, pinMode], rfl⟩
  | gap =>
    obtain ⟨⟨-, rfl⟩, rfl⟩ : (isRegisterOp s.op = true ∧ k = 0) ∧ i = topBit := by simpa [Seq.allowed] using ha
    exact ⟨[.mode .sdo .input, .delay .tPhase], by simp [positionEvents, hq, ho, delay, emit, pinMode], rfl⟩
  | addr | dataOut => simpa [positionEvents, hq, burstModes] using tickOut_modes _ s
  | dataIn => simpa [positionEvents, hq] using tickIn_modes ho hq
  | pin => simp [Seq.allowed, ho, codes_eq] at ha

/-- Settles O13: the command leaves the address byte sent and the bytes of the next 64 answers, and each direction event
belongs to its position. -/
theorem readBurstRule : Obligations.ReadBurstRule := by
  unfold Obligations.ReadBurstRule
  refine ⟨fun addr s hb => ⟨fun ha => ⟨rfl, ⟨_, exec_completes hb ((addrInRange_iff addr).2 ha), fun k n => ?_, ?_⟩,
    sequencerVisits_readBurst addr s⟩,
    fun hw => performRegisterCommand_wide _ readBurstBody hb (addressFits_eq_false hw)⟩, fun u hb ho ha => ?_⟩
  · simp only [completed_readBurst]
    exact getLsbD_answerBurst s k n
  · rw [completed_readBurst, addressByte_read addr ha]
    rfl
  · rw [tick_trace hb]
    exact positionEvents_modes ho ha

end Sys2Proof.Machine

namespace Sys2Proof.Machine

/-! ### The family of spec/42_chip_select_and_pins.md: the two chip-select commands, the guarded forms -/

/-! CS_ASSERT and CS_RELEASE: word, next state, position. -/

/-- A command of one position stands at it from acceptance (R31). -/
theorem sequencerVisits_single {i : Instr} (s : State) (h : positionsOf i = [firstSeq (opField (encode i))]) :
    SequencerVisits (acceptCommand (encode i) s) (positionsOf i) := by
  refine sequencerVisits_accepted ?_
  rw [h, ← acceptCommand_seq i s]
  rfl

/-- Settles O7: the command writes chip-select low, in one position, and touches neither ghost. -/
theorem csAssertRule : Obligations.CsAssertRule := by
  unfold Obligations.CsAssertRule
  refine ⟨rfl, fun s hb => ⟨⟨_, exec_completes hb rfl, ?_⟩, sequencerVisits_single (i := .csAssert) s rfl⟩⟩
  rw [completed_csAssert]
  rfl

/-- Settles O8: the command writes chip-select high, in one position, and clears `G_TXN_DONE`. -/
theorem csReleaseRule : Obligations.CsReleaseRule := by
  unfold Obligations.CsReleaseRule
  refine ⟨rfl, fun s hb => ⟨⟨_, exec_completes hb rfl, ?_⟩, sequencerVisits_single (i := .csRelease) s rfl⟩⟩
  rw [completed_csRelease]
  rfl

/-! The guarded forms (R152, R154). -/

/-- Where a transaction may begin and must end (R152, R154): at rest, chip-select high, `G_TXN_DONE` clear. -/
structure BetweenTransactions (s : State) : Prop where
  idle : s.busy = false
  ncsHigh : s.ncs = true
  txnNotDone : s.txnDone = false

/-- From between transactions the host actions `xs` complete, lead there again and record nothing (R154). -/
def EndsBetweenTransactions (xs : List HostAction) : Prop :=
  ∀ s, BetweenTransactions s → ∃ t, presentAll xs s = .next t ∧ BetweenTransactions t ∧ t.viol = s.viol

theorem EndsBetweenTransactions.nil : EndsBetweenTransactions [] := fun s h => ⟨s, rfl, h, rfl⟩

theorem EndsBetweenTransactions.append {xs ys : List HostAction} (hxs : EndsBetweenTransactions xs)
    (hys : EndsBetweenTransactions ys) : EndsBetweenTransactions (xs ++ ys) := by
  intro s hs
  obtain ⟨t, hst, ht, htviol⟩ := hxs s hs
  obtain ⟨u, htu, hu, huviol⟩ := hys t ht
  refine ⟨u, ?_, hu, huviol.trans htviol⟩
  rw [presentAll_append, hst]
  exact htu

/-- Under an open transaction that has served no register command the entry check finds nothing (R166). -/
theorem violAfterEntry_of_open {s : State} (cw : CmdWord) (hn : s.ncs = false) (ht : s.txnDone = false) :
    s.violAfterEntry cw = s.viol := by
  simp [State.violAfterEntry, hn, ht]

theorem completed_viol_of_open {s : State} (i : Instr) (hn : s.ncs = false) (ht : s.txnDone = false) :
    (completed i s).viol = s.viol := by
  rw [completed_viol, violAfterEntry_of_open _ hn ht, ite_self]

/-- The assertion opens a transaction with `G_TXN_DONE` clear, so the command meets its entry conditions; the release
closes it. -/
theorem endsBetweenTransactions_guarded {i : Instr} (hi : i.wellFormed = true) :
    EndsBetweenTransactions (guarded i) := by
  intro s hs
  have hrun : presentAll (guarded i) s = .next (completed .csRelease (completed i (completed .csAssert s))) := by
    rw [guarded, presentAll_call hs.idle rfl, presentAll_call (completed_busy _ _) hi,
      presentAll_call (completed_busy _ _) rfl, presentAll]
  have hopen : (completed .csAssert s).ncs = false := completed_ncs .csAssert s
  have hclear : (completed .csAssert s).txnDone = false := by simp [completed_csAssert, hs.txnNotDone]
  refine ⟨_, hrun, ⟨completed_busy _ _, completed_ncs _ _, completed_txnDone _ _⟩, ?_⟩
  calc (completed .csRelease (completed i (completed .csAssert s))).viol
      = (completed i (completed .csAssert s)).viol := completed_viol ..
    _ = (completed .csAssert s).viol := completed_viol_of_open i hopen hclear
    _ = s.viol := completed_viol ..

/-- A guarded form is one guarded register command, or two (R94). -/
theorem endsBetweenTransactions_expand {p : Pseudo} (hg : p.isGuarded = true) (hw : p.wellFormed = true) :
    EndsBetweenTransactions p.expand := by
  cases p with
  | xread addr => exact endsBetweenTransactions_guarded hw
  | xwrite addr v => exact endsBetweenTransactions_guarded hw
  | xburst addr => exact endsBetweenTransactions_guarded hw
  | xshadow addr shadow v =>
    obtain ⟨haddr, hshadow⟩ := Bool.and_eq_true_iff.mp hw
    exact (endsBetweenTransactions_guarded (i := .writeReg addr v) haddr).append
      (endsBetweenTransactions_guarded (i := .writeReg shadow (~~~v)) hshadow)
  | waitUs n | waitMs n | busReset => cases hg

theorem endsBetweenTransactions_flatMap {ps : List Pseudo} (h : ∀ p ∈ ps, p.isGuarded = true ∧ p.wellFormed = true) :
    EndsBetweenTransactions (ps.flatMap Pseudo.expand) := by
  induction ps with
  | nil => exact .nil
  | cons p ps ih =>
    obtain ⟨⟨hg, hw⟩, hps⟩ := List.forall_mem_cons.mp h
    exact (endsBetweenTransactions_expand hg hw).append (ih hps)

/-- Settles O47: each form leads from between transactions back there, so the forms can follow one another. -/
theorem guardedFormsRaiseNoViolation : Obligations.GuardedFormsRaiseNoViolation := by
  unfold Obligations.GuardedFormsRaiseNoViolation
  refine ⟨fun _ _ => ⟨rfl, rfl, rfl, fun _ => rfl⟩, fun ps s hps hb hn ht => ?_⟩
  obtain ⟨t, hrun, ⟨hidle, hhigh, hclear⟩, hviol⟩ := endsBetweenTransactions_flatMap hps s ⟨hb, hn, ht⟩
  exact ⟨t, hrun, hidle, hhigh, hclear, hviol⟩

end Sys2Proof.Machine

namespace Sys2Proof.Machine

/-! ### The family of spec/60_exceptions.md: what the entry check, a host read and another agent mark, and the step at rest -/

/-! A busy block refuses every command, and another agent's word stops an idle one too (R166, R169, R176). -/

theorem exec_of_busy (i : Instr) {s : State} (hb : s.busy = true) :
    exec i s = .fault (.reentry (record (.reentry (encode i)) s)) := by
  obtain ⟨-, h⟩ | ⟨h, -⟩ | ⟨h, -⟩ := exec_cases i s
  · exact h
  · simp [hb] at h
  · simp [hb] at h

/-- Settles O16: V3 is checked before any operand, and recording touches `G_VIOL` alone. -/
theorem busyBlockStopsReentry : Obligations.BusyBlockStopsReentry := by
  unfold Obligations.BusyBlockStopsReentry
  exact fun i s hb => ⟨_, exec_of_busy i hb, record_eq _ s, fun x => mem_record _ x s⟩

theorem step_of_intruder {cw : CmdWord} {rest : List HostAction} {s : State} (h : s.inbox = .intruder cw :: rest) :
    step s = .fault (.reentry (record (.reentry cw) { s with inbox := rest })) := by
  unfold step advance
  rw [h]
  rfl

/-- Settles O19: the word is caught before the step looks at `BUSY`. -/
theorem otherAgentStopsReentry : Obligations.OtherAgentStopsReentry := by
  unfold Obligations.OtherAgentStopsReentry
  exact fun cw rest s h => ⟨_, step_of_intruder h, record_eq _ _, fun x => mem_record _ x { s with inbox := rest }⟩

/-! The entry check of a completed command (R166, R169). -/

/-- Every command but the two that move chip-select clocks the wire. -/
theorem isWireOp_encode (i : Instr) : isWireOp (opField (encode i)) = true ↔ ¬ (i = .csAssert ∨ i = .csRelease) := by
  cases i <;> simp [encode, isWireOp, isRegisterOp, codes_eq]

theorem violAfterEntry_of_ncs_high {s : State} (cw : CmdWord) (hn : s.ncs = true) :
    s.violAfterEntry cw = (record (.ncsHighOnEntry cw) s).viol :=
  if_pos hn

/-- `CS_STRICT` holds (R5), so V2 is checked. -/
theorem violAfterEntry_of_txnDone {s : State} (cw : CmdWord) (hn : s.ncs = false) (ht : s.txnDone = true) :
    s.violAfterEntry cw = (record (.transactionNotDelimited cw) s).viol := by
  simp [State.violAfterEntry, Config.csStrict, hn, ht]

/-- Settles O18: the command completes, and its marks are those of the first entry condition that fails. -/
theorem entryCheckMarks : Obligations.EntryCheckMarks := by
  unfold Obligations.EntryCheckMarks
  intro i s hi hb
  refine ⟨_, exec_completes hb hi, ?_⟩
  rw [completed_viol]
  simp only [isWireOp_encode]
  by_cases hcs : i = .csAssert ∨ i = .csRelease
  · rw [if_pos hcs, if_neg (not_not_intro hcs)]
  rw [if_neg hcs, if_pos hcs]
  cases hn : s.ncs with
  | true => simpa [violAfterEntry_of_ncs_high _ hn] using fun x => mem_record _ x s
  | false =>
    cases ht : s.txnDone with
    | true => simpa [violAfterEntry_of_txnDone _ hn ht] using fun x => mem_record _ x s
    | false => simp [violAfterEntry_of_open _ hn ht]

/-! A host read (R166, R181). -/

theorem hostRead_of_written {r : HostReg} {s : State} (h : s.hostRegWritten r = true) :
    hostRead r s = { s with returned := s.returned ++ [.byte (s.hostReg r)] } := by
  simp [hostRead, h]

theorem hostRead_of_unwritten {r : HostReg} {s : State} (h : s.hostRegWritten r = false) :
    hostRead r s = { s with
      viol := (record (.unwrittenRead r) s).viol, returned := s.returned ++ [.byte (s.hostReg r)] } := by
  rw [hostRead, h, if_neg Bool.false_ne_true, record_eq]

/-- Settles O21, by the register's written mark: where it is set the read only returns, else it records V6 as well. -/
theorem hostReadReturnsRegister : Obligations.HostReadReturnsRegister := by
  unfold Obligations.HostReadReturnsRegister
  intro r s
  refine ⟨hostRead r s, rfl, ?_⟩
  cases hw : s.hostRegWritten r with
  | true =>
    rw [hostRead_of_written hw]
    exact ⟨rfl, fun _ => rfl, fun h => absurd h Bool.true_eq_false.mp⟩
  | false =>
    rw [hostRead_of_unwritten hw]
    exact ⟨rfl, fun h => absurd h Bool.false_ne_true, fun _ x => mem_record _ x s⟩

/-! The step at rest (R178, R182). -/

theorem step_of_nothing_presented {s : State} (h : s.inbox = []) : step s = .next (tick s) := by
  unfold step advance
  rw [h]

theorem tick_of_idle {s : State} (hb : s.busy = false) : tick s = s := by
  obtain ⟨-, h⟩ | ⟨h, -⟩ | ⟨h, -⟩ := tick_cases s
  · exact h
  · simp [hb] at h
  · simp [hb] at h

/-- Settles O25: with nothing presented a step is a position, and at rest a position is nothing. -/
theorem idleStepChangesNothing : Obligations.IdleStepChangesNothing := by
  unfold Obligations.IdleStepChangesNothing
  intro s hb h
  rw [step_of_nothing_presented h, tick_of_idle hb]

end Sys2Proof.Machine

namespace Sys2Proof.Machine

/-! ### The family of spec/70_reset_and_hazards.md: the guarantees on the wire, event counts and durations, the link
poll, the start-up sequence -/

/-- Settles O31: a step appends events that are quiet whatever the pins were, so the longer trace is as quiet as the
trace before. -/
theorem stepKeepsDataQuiet : Obligations.StepKeepsDataQuiet := by
  unfold Obligations.StepKeepsDataQuiet
  refine ⟨rfl, fun s t hs h => ?_⟩
  obtain ⟨es, htrace, -, hquiet⟩ := step_extends h
  unfold DataQuiet at hs ⊢
  rw [htrace, sdoQuiet_append, hs, hquiet, Bool.and_self]

/-- A well-formed command of an idle block completes, and what holds of its events holds of what its trace grows by. -/
theorem exec_appends {i : Instr} {s : State} {P : List Event → Prop} (hb : s.busy = false) (hi : i.wellFormed = true)
    (h : P (commandEvents i s)) : ∃ t es, exec i s = .next t ∧ t.trace = s.trace ++ es ∧ P es :=
  ⟨_, _, exec_completes hb hi, completed_trace i s, h⟩

/-! Event counts and minimum durations of the frames (R202, R203). -/

theorem countEvents_cons (e : Event) (es : List Event) :
    countEvents (e :: es) = (EventCounts.ofEvent e).add (countEvents es) := rfl

theorem minDuration_cons (τ : Timing) (e : Event) (es : List Event) :
    minDuration τ (e :: es) = e.minMicros τ + minDuration τ es := rfl

theorem minDuration_nil (τ : Timing) : minDuration τ [] = 0 := rfl

theorem countEvents_inBytes (f : Fin Config.burstLen → Byte) (ks : List (Fin Config.burstLen)) :
    countEvents (ks.flatMap (fun k => inByteEvents (f k))) =
      ⟨8 * ks.length, 8 * ks.length, 0, 8 * ks.length, 0, 0, ks.length⟩ := by
  induction ks with
  | nil => rfl
  | cons k ks ih =>
    rw [List.flatMap_cons, countEvents_append, countEvents_inByte, ih]
    simp [EventCounts.add, Nat.mul_add, Nat.add_comm]

theorem minDuration_inBytes (τ : Timing) (f : Fin Config.burstLen → Byte) (ks : List (Fin Config.burstLen)) :
    minDuration τ (ks.flatMap (fun k => inByteEvents (f k))) = ks.length * τ.tInSettle := by
  induction ks with
  | nil => rw [List.flatMap_nil, minDuration_nil, List.length_nil, Nat.zero_mul]
  | cons k ks ih =>
    rw [List.flatMap_cons, minDuration_append, minDuration_inByte, ih, List.length_cons, Nat.succ_mul, Nat.add_comm]

theorem bytesUp_length : bytesUp.length = 8 := rfl

/-- The table of R203, for every command. -/
def countsOf : Instr → EventCounts
  | .csAssert => ⟨0, 0, 0, 0, 0, 1, 0⟩
  | .csRelease => ⟨0, 0, 0, 0, 0, 1, 0⟩
  | .shiftOut _ => ⟨8, 8, 8, 0, 0, 0, 16⟩
  | .shiftIn => ⟨8, 8, 0, 8, 0, 0, 1⟩
  | .readReg _ => ⟨16, 16, 8, 8, 0, 0, 19⟩
  | .writeReg _ _ => ⟨16, 16, 16, 0, 0, 0, 34⟩
  | .readBurst _ => ⟨72, 72, 8, 64, 3, 0, 26⟩

theorem countEvents_command (i : Instr) (s : State) : countEvents (commandEvents i s) = countsOf i := by
  cases i with
  | csAssert | csRelease => rfl
  | shiftOut b => exact countEvents_outByte b
  | shiftIn => exact countEvents_inByte _
  | readReg addr =>
    simp [commandEvents, readFrame, countEvents_cons, countEvents_append, countEvents_outByte, countEvents_inByte,
      EventCounts.ofEvent, EventCounts.add, countsOf]
  | writeReg addr v =>
    simp [commandEvents, writeFrame, countEvents_cons, countEvents_append, countEvents_outByte, EventCounts.ofEvent,
      EventCounts.add, countsOf]
  | readBurst addr =>
    have hbytes := countEvents_inBytes (fun k => s.answerBurst[k.val]) bytesUp
    simp [commandEvents, burstFrame, countEvents_cons, countEvents_append, countEvents_outByte, hbytes, bytesUp_length,
      EventCounts.ofEvent, EventCounts.add, countEvents, countsOf]

/-- Settles O37: the bytes of a frame are counted byte by byte, and the single events between them one by one. -/
theorem eventCountTable : Obligations.EventCountTable := by
  unfold Obligations.EventCountTable
  intro addr v s hb ha p hp
  have ha' := (addrInRange_iff addr).2 ha
  simp only [List.mem_cons, List.not_mem_nil, or_false] at hp
  obtain rfl | rfl | rfl | rfl | rfl | rfl | rfl := hp
  · exact exec_appends hb rfl (countEvents_command .csAssert s)
  · exact exec_appends hb rfl (countEvents_command .csRelease s)
  · exact exec_appends hb rfl (countEvents_command (.shiftOut v) s)
  · exact exec_appends hb rfl (countEvents_command .shiftIn s)
  · exact exec_appends hb ha' (countEvents_command (.readReg addr) s)
  · exact exec_appends hb ha' (countEvents_command (.writeReg addr v) s)
  · exact exec_appends hb ha' (countEvents_command (.readBurst addr) s)

/-- The formulas of R202, for every command. -/
def leastMicros (τ : Timing) : Instr → Nat
  | .csAssert => 0
  | .csRelease => 0
  | .shiftOut _ => 8 * (τ.tOutLow + τ.tOutHigh)
  | .shiftIn => τ.tInSettle
  | .readReg _ => τ.tStart + 8 * (τ.tOutLow + τ.tOutHigh) + τ.tPhase + τ.tInSettle
  | .writeReg _ _ => τ.tStart + 16 * (τ.tOutLow + τ.tOutHigh) + τ.tPhase
  | .readBurst _ => τ.tStart + 8 * (τ.tOutLow + τ.tOutHigh) + τ.tPhase + 8 * τ.tInSettle

theorem minDuration_command (τ : Timing) (i : Instr) (s : State) :
    minDuration τ (commandEvents i s) = leastMicros τ i := by
  cases i with
  | csAssert | csRelease => rfl
  | shiftOut b => exact minDuration_outByte τ b
  | shiftIn => exact minDuration_inByte τ _
  | readReg addr =>
    simp [commandEvents, readFrame, minDuration_cons, minDuration_append, minDuration_outByte, minDuration_inByte,
      Event.minMicros, DelayParam.micros, leastMicros, Nat.add_assoc]
  | writeReg addr v =>
    simp [commandEvents, writeFrame, minDuration_cons, minDuration_append, minDuration_outByte, Event.minMicros,
      DelayParam.micros, leastMicros]
    omega
  | readBurst addr =>
    have hbytes := minDuration_inBytes τ (fun k => s.answerBurst[k.val]) bytesUp
    simp [commandEvents, burstFrame, minDuration_cons, minDuration_append, minDuration_outByte, hbytes, bytesUp_length,
      Event.minMicros, DelayParam.micros, minDuration_nil, leastMicros, Nat.add_assoc]

/-- Settles O38: the delays of a frame are those of its bytes and the single ones before and between them. -/
theorem minimumDurations : Obligations.MinimumDurations := by
  unfold Obligations.MinimumDurations
  intro addr v s τ hb ha p hp
  have ha' := (addrInRange_iff addr).2 ha
  simp only [List.mem_cons, List.not_mem_nil, or_false] at hp
  obtain rfl | rfl | rfl | rfl | rfl | rfl | rfl := hp
  · exact exec_appends hb rfl (minDuration_command τ .csAssert s)
  · exact exec_appends hb rfl (minDuration_command τ .csRelease s)
  · exact exec_appends hb rfl (minDuration_command τ (.shiftOut v) s)
  · exact exec_appends hb rfl (minDuration_command τ .shiftIn s)
  · exact exec_appends hb ha' (minDuration_command τ (.readReg addr) s)
  · exact exec_appends hb ha' (minDuration_command τ (.writeReg addr v) s)
  · exact exec_appends hb ha' (minDuration_command τ (.readBurst addr) s)

/-! The events before the first falling edge, and those around the gap (R193, R194). Delays and direction events are no
clock writes. -/

@[simp] theorem untilFall_delay (t : DelayParam) (es : List Event) :
    untilFall (.delay t :: es) = .delay t :: untilFall es := rfl

@[simp] theorem untilFall_mode (p : Pin) (d : Dir) (es : List Event) :
    untilFall (.mode p d :: es) = .mode p d :: untilFall es := rfl

@[simp] theorem afterRise_delay (n : Nat) (t : DelayParam) (es : List Event) :
    afterRise (n + 1) (.delay t :: es) = afterRise (n + 1) es := rfl

@[simp] theorem afterRise_mode (n : Nat) (p : Pin) (d : Dir) (es : List Event) :
    afterRise (n + 1) (.mode p d :: es) = afterRise (n + 1) es := rfl

theorem untilFall_outByteEvents (x : Byte) : untilFall (outByteEvents x) = [] := by
  simpa using untilFall_outByte x []

theorem untilFall_inByteEvents (x : Byte) : untilFall (inByteEvents x) = [.delay .tInSettle] := by
  simpa using untilFall_inByte x []

theorem untilFall_readFrame (addr : Addr) (d : Byte) : untilFall (readFrame addr d) = [.delay .tStart] := by
  simp [readFrame, untilFall_outByte]

theorem untilFall_writeFrame (addr : Addr) (v : Byte) : untilFall (writeFrame addr v) = [.delay .tStart] := by
  simp [writeFrame, untilFall_outByte]

theorem untilFall_burstFrame (addr : Addr) (d : Vector Byte Config.burstLen) :
    untilFall (burstFrame addr d) = [.delay .tStart, .mode .sdo .output] := by
  simp [burstFrame, untilFall_outByte]

/-- Settles O39: whatever stands before the first falling edge of a register command holds the start delay. -/
theorem startGuarantee : Obligations.StartGuarantee := by
  unfold Obligations.StartGuarantee
  intro addr v s τ hb ha
  have ha' := (addrInRange_iff addr).2 ha
  have lead {i : Instr} (hi : i.wellFormed = true)
      (h : minDuration τ (untilFall (commandEvents i s)) = τ.tStart) :
      ∃ t es, exec i s = .next t ∧ t.trace = s.trace ++ es ∧
        ∀ ds, Admissible τ (untilFall es) ds → τ.tStart ≤ ds.sum :=
    exec_appends hb hi fun ds hds => h ▸ hds.minDuration_le
  refine ⟨fun i hi => ?_, exec_appends hb rfl ?_⟩
  · simp only [List.mem_cons, List.not_mem_nil, or_false] at hi
    obtain rfl | rfl | rfl := hi
    · exact lead ha' (by rw [commandEvents, untilFall_readFrame]; rfl)
    · exact lead ha' (by rw [commandEvents, untilFall_writeFrame]; rfl)
    · exact lead ha' (by rw [commandEvents, untilFall_burstFrame]; rfl)
  · exact untilFall_outByteEvents v

/-! After the eighth rising edge stand the rest of the address byte's last cell and the data phase. -/

theorem afterRise_readFrame (addr : Addr) (d : Byte) :
    afterRise 8 (readFrame addr d) = .delay .tOutHigh :: .delay .tPhase :: inByteEvents d := by
  rw [readFrame, List.cons_append, afterRise_delay, afterRise_outByte]

theorem afterRise_writeFrame (addr : Addr) (v : Byte) :
    afterRise 8 (writeFrame addr v) = .delay .tOutHigh :: .delay .tPhase :: outByteEvents v := by
  rw [writeFrame, List.cons_append, afterRise_delay, afterRise_outByte]

theorem afterRise_burstFrame (addr : Addr) (d : Vector Byte Config.burstLen) :
    afterRise 8 (burstFrame addr d) =
      .delay .tOutHigh :: .mode .sdo .input :: .delay .tPhase ::
        (bytesUp.flatMap (fun k => inByteEvents d[k.val]) ++ [.mode .sdo .output]) := by
  simp only [burstFrame, List.cons_append, List.append_assoc]
  rw [afterRise_delay, afterRise_mode, afterRise_outByte]

theorem phaseGap_readFrame (addr : Addr) (d : Byte) :
    untilFall (afterRise 8 (readFrame addr d)) = [.delay .tOutHigh, .delay .tPhase, .delay .tInSettle] := by
  rw [afterRise_readFrame, untilFall_delay, untilFall_delay, untilFall_inByteEvents]

theorem phaseGap_writeFrame (addr : Addr) (v : Byte) :
    untilFall (afterRise 8 (writeFrame addr v)) = [.delay .tOutHigh, .delay .tPhase] := by
  rw [afterRise_writeFrame, untilFall_delay, untilFall_delay, untilFall_outByteEvents]

/-- A run of in bytes begins with its first byte's settle delay. -/
theorem untilFall_inBytes (f : Fin Config.burstLen → Byte) (es : List Event) {ks : List (Fin Config.burstLen)}
    (hks : ks ≠ []) : untilFall (ks.flatMap (fun k => inByteEvents (f k)) ++ es) = [.delay .tInSettle] := by
  cases ks with
  | nil => exact absurd rfl hks
  | cons k ks => rw [List.flatMap_cons, List.append_assoc, untilFall_inByte]

theorem phaseGap_burstFrame (addr : Addr) (d : Vector Byte Config.burstLen) :
    untilFall (afterRise 8 (burstFrame addr d)) =
      [.delay .tOutHigh, .mode .sdo .input, .delay .tPhase, .delay .tInSettle] := by
  have hbytes : bytesUp ≠ [] := by decide
  rw [afterRise_burstFrame, untilFall_delay, untilFall_mode, untilFall_delay, untilFall_inBytes _ _ hbytes]

/-- Settles O40: the lower bounds of the events in the gap add up to what R194 says. -/
theorem phaseGapGuarantee : Obligations.PhaseGapGuarantee := by
  unfold Obligations.PhaseGapGuarantee
  intro addr v s τ hb ha p hp
  have ha' := (addrInRange_iff addr).2 ha
  have gap {i : Instr} {n : Nat} (hi : i.wellFormed = true) (hn : τ.tPhase ≤ n)
      (h : minDuration τ (untilFall (afterRise 8 (commandEvents i s))) = n) :
      ∃ t es, exec i s = .next t ∧ t.trace = s.trace ++ es ∧
        ∀ ds, Admissible τ (untilFall (afterRise 8 es)) ds → n ≤ ds.sum ∧ τ.tPhase ≤ ds.sum :=
    exec_appends hb hi fun ds hds =>
      have hle : n ≤ ds.sum := h ▸ hds.minDuration_le
      ⟨hle, hn.trans hle⟩
  simp only [List.mem_cons, List.not_mem_nil, or_false] at hp
  obtain rfl | rfl | rfl := hp
  · refine gap ha' (by omega) ?_
    simp [commandEvents, phaseGap_readFrame, minDuration_cons, minDuration_nil, Event.minMicros, DelayParam.micros,
      Nat.add_assoc]
  · refine gap ha' (by omega) ?_
    simp [commandEvents, phaseGap_writeFrame, minDuration_cons, minDuration_nil, Event.minMicros, DelayParam.micros]
  · refine gap ha' (by omega) ?_
    simp [commandEvents, phaseGap_burstFrame, minDuration_cons, minDuration_nil, Event.minMicros, DelayParam.micros,
      Nat.add_assoc]

/-! Where the delays of the in bytes stand (R196). -/

/-- A burst has more rising edges than the eight of its address byte: a later one is counted in its data phase. -/
theorem afterRise_skip_burstAddress (n : Nat) (addr : Addr) (d : Vector Byte Config.burstLen) :
    afterRise (8 + (n + 1)) (burstFrame addr d) =
      afterRise (n + 1) (bytesUp.flatMap (fun k => inByteEvents d[k.val]) ++ [.mode .sdo .output]) := by
  simp only [burstFrame, List.cons_append, List.append_assoc]
  rw [← Nat.add_assoc, afterRise_delay, afterRise_mode, Nat.add_assoc, afterRise_skip_outByte, afterRise_mode,
    afterRise_delay]

/-- Between the rising edge of in cell `n` of a burst and the next falling edge stands its sample, then whatever comes
between two bytes or ends the burst (R133, R196). -/
theorem untilFall_afterRise_burstFrame (n : Fin 64) (addr : Addr) (d : Vector Byte Config.burstLen) :
    ∃ x, untilFall (afterRise (9 + n.val) (burstFrame addr d)) =
      if n.val = 63 then [.sample x, .mode .sdo .output]
      else if n.val % 8 = 7 then [.sample x, .delay .tInSettle]
      else [.sample x] := by
  have hn := n.isLt
  have hcell : n.val % 8 < 8 := Nat.mod_lt _ (by decide)
  obtain ⟨x, hx⟩ := untilFall_afterRise_inBytes (fun k => d[k.val]) [.mode .sdo .output] bytesUp (n.val / 8)
    ⟨n.val % 8, hcell⟩ (by rw [bytesUp_length]; omega)
  refine ⟨x, ?_⟩
  rw [show 9 + n.val = 8 + (n.val + 1) by omega, afterRise_skip_burstAddress,
    show n.val + 1 = 8 * (n.val / 8) + n.val % 8 + 1 by omega, hx]
  by_cases h7 : n.val % 8 = 7
  · rw [if_pos (Fin.ext h7), if_pos h7]
    by_cases h63 : n.val = 63
    · rw [if_pos h63, h63]
      rfl
    · have hmore : bytesUp.drop (n.val / 8 + 1) ≠ [] := by
        rw [Ne, List.drop_eq_nil_iff, bytesUp_length]
        omega
      rw [if_neg h63, untilFall_inBytes _ _ hmore]
  · rw [if_neg fun h => h7 (congrArg Fin.val h), if_neg h7, if_neg (by omega)]

/-- The delays after the address byte's last rising edge: the rest of its cell, the gap, a settle delay per byte. -/
theorem delays_afterRise_burstFrame (addr : Addr) (d : Vector Byte Config.burstLen) :
    (countEvents (afterRise 8 (burstFrame addr d))).delays = 10 := by
  have hbytes := countEvents_inBytes (fun k => d[k.val]) bytesUp
  simp [afterRise_burstFrame, countEvents_cons, countEvents_append, hbytes, bytesUp_length, EventCounts.ofEvent,
    EventCounts.add, countEvents]

theorem delays_afterRise_readFrame (addr : Addr) (d : Byte) :
    (countEvents (afterRise 8 (readFrame addr d))).delays = 3 := by
  simp [afterRise_readFrame, countEvents_cons, countEvents_inByte, EventCounts.ofEvent, EventCounts.add]

/-- The cells of an in byte hold no delay. -/
theorem delays_inCells (x : Byte) :
    (countEvents (bitsDown.flatMap (fun i => inCellEvents (bitOf x i)))).delays = 0 := by
  have h := congrArg EventCounts.delays (countEvents_inByte x)
  rw [inByteEvents, countEvents_cons] at h
  simpa [EventCounts.ofEvent, EventCounts.add] using h

/-- Settles O41: the counts leave no delay besides those of the gaps, and each gap is read off the frame. -/
theorem inByteTiming : Obligations.InByteTiming := by
  unfold Obligations.InByteTiming
  intro addr s hb ha
  have ha' := (addrInRange_iff addr).2 ha
  refine ⟨⟨_, _, exec_completes hb rfl, completed_trace .shiftIn s, rfl, delays_inCells _⟩, ?_, ?_⟩
  · exact exec_appends hb ha' ⟨phaseGap_readFrame _ _, delays_afterRise_readFrame _ _⟩
  · exact exec_appends hb ha' ⟨phaseGap_burstFrame _ _, delays_afterRise_burstFrame _ _,
      fun n => untilFall_afterRise_burstFrame n _ _⟩

/-! The link poll (R188, R200). -/

/-- What a guarded command leaves. -/
def guardedResult (i : Instr) (s : State) : State := completed .csRelease (completed i (completed .csAssert s))

theorem presentAll_guarded {i : Instr} {s : State} (hb : s.busy = false) (hi : i.wellFormed = true) :
    presentAll (guarded i) s = .next (guardedResult i s) := by
  rw [guarded, presentAll_call hb rfl, presentAll_call (completed_busy _ _) hi,
    presentAll_call (completed_busy _ _) rfl]
  rfl

theorem guardedResult_betweenTransactions {i : Instr} {s : State} (hi : i.wellFormed = true)
    (hs : BetweenTransactions s) : BetweenTransactions (guardedResult i s) ∧ (guardedResult i s).viol = s.viol := by
  obtain ⟨t, hrun, ht⟩ := endsBetweenTransactions_guarded hi s hs
  obtain rfl : guardedResult i s = t := Host.Outcome.next.inj ((presentAll_guarded hs.idle hi).symm.trans hrun)
  exact ht

/-- The motion status register is within the 7-bit addresses (R51, R52). -/
theorem readMotion_wellFormed : (Instr.readReg Config.regMotion).wellFormed = true := rfl

/-- The events and the returned values of a guarded read of the motion status register that is answered `v`. -/
def motionReadEvents (v : Byte) : List Event :=
  Event.write .ncs false :: readFrame (Config.regMotion.setWidth 7) v ++ [Event.write .ncs true]

def motionReadReturns (v : Byte) : List Returned := [.nothing, .byte v, .nothing]

theorem guardedResult_readMotion (s : State) :
    let t := guardedResult (.readReg Config.regMotion) s
    t.trace = s.trace ++ motionReadEvents t.rx ∧ t.returned = s.returned ++ motionReadReturns t.rx := by
  simp [guardedResult, completed_csRelease, completed_readReg, completed_csAssert, motionReadEvents, motionReadReturns]

/-- `t` comes from `s` by a poll with cap `n` whose reads were answered `vs` (R200). -/
structure Polled (mask : Byte) (n : Nat) (s t : State) (vs : List Byte) : Prop where
  trace : t.trace = s.trace ++ vs.flatMap motionReadEvents
  returned : t.returned = s.returned ++ vs.flatMap motionReadReturns
  withinCap : vs.length ≤ n
  reads : 0 < n → 0 < vs.length
  earlierClear : ∀ v ∈ vs.dropLast, v &&& mask = 0
  stopped : t.rx &&& mask ≠ 0 ∨ vs.length = n
  lastRead : t.rx = vs.getLastD s.rx
  between : BetweenTransactions t
  viol : t.viol = s.viol

theorem Polled.exhausted {mask : Byte} {s : State} (hs : BetweenTransactions s) : Polled mask 0 s s [] where
  trace := by simp
  returned := by simp
  withinCap := Nat.le_refl 0
  reads := id
  earlierClear := nofun
  stopped := .inr rfl
  lastRead := rfl
  between := hs
  viol := rfl

/-- A read with the tested bit 1 ends the poll. -/
theorem Polled.found {mask : Byte} {n : Nat} {s : State} (hs : BetweenTransactions s)
    (h : (guardedResult (.readReg Config.regMotion) s).rx &&& mask ≠ 0) :
    Polled mask (n + 1) s (guardedResult (.readReg Config.regMotion) s)
      [(guardedResult (.readReg Config.regMotion) s).rx] := by
  obtain ⟨htrace, hreturned⟩ := guardedResult_readMotion s
  obtain ⟨hbetween, hviol⟩ := guardedResult_betweenTransactions readMotion_wellFormed hs
  exact {
    trace := by simpa using htrace
    returned := by simpa using hreturned
    withinCap := Nat.le_add_left 1 n
    reads := fun _ => Nat.one_pos
    earlierClear := nofun
    stopped := .inl h
    lastRead := rfl
    between := hbetween
    viol := hviol }

/-- A read with the tested bit 0 leaves the rest of the poll to do. -/
theorem Polled.again {mask : Byte} {n : Nat} {s u : State} {vs : List Byte} (hs : BetweenTransactions s)
    (h : (guardedResult (.readReg Config.regMotion) s).rx &&& mask = 0)
    (hu : Polled mask n (guardedResult (.readReg Config.regMotion) s) u vs) :
    Polled mask (n + 1) s u ((guardedResult (.readReg Config.regMotion) s).rx :: vs) := by
  obtain ⟨htrace, hreturned⟩ := guardedResult_readMotion s
  obtain ⟨-, hviol⟩ := guardedResult_betweenTransactions readMotion_wellFormed hs
  exact {
    trace := by rw [hu.trace, htrace, List.flatMap_cons, List.append_assoc]
    returned := by rw [hu.returned, hreturned, List.flatMap_cons, List.append_assoc]
    withinCap := Nat.succ_le_succ hu.withinCap
    reads := fun _ => Nat.succ_pos _
    earlierClear := by
      cases vs with
      | nil => exact nofun
      | cons v vs => exact List.forall_mem_cons.mpr ⟨h, hu.earlierClear⟩
    stopped := hu.stopped.imp_right (congrArg Nat.succ)
    lastRead := by rw [hu.lastRead, List.getLastD_cons]
    between := hu.between
    viol := hu.viol.trans hviol }

theorem linkPoll_polled (mask : Byte) (n : Nat) {s : State} (hs : BetweenTransactions s) :
    ∃ t vs, linkPoll mask n s = .next t ∧ Polled mask n s t vs := by
  induction n generalizing s with
  | zero => exact ⟨s, [], rfl, .exhausted hs⟩
  | succ n ih =>
    have hrun := presentAll_guarded hs.idle readMotion_wellFormed
    by_cases h : (guardedResult (.readReg Config.regMotion) s).rx &&& mask = 0
    · obtain ⟨u, vs, hpoll, hu⟩ := ih (guardedResult_betweenTransactions readMotion_wellFormed hs).1
      exact ⟨u, _, by simp only [linkPoll, hrun, if_pos h, hpoll], .again hs h hu⟩
    · exact ⟨_, _, by simp only [linkPoll, hrun, if_neg h], .found hs h⟩

/-- Settles O49, by induction on the cap: a read either ends the poll or leaves a poll with a cap one less. -/
theorem linkPollBounded : Obligations.LinkPollBounded := by
  unfold Obligations.LinkPollBounded
  intro mask cap s hb hn ht
  obtain ⟨t, vs, hpoll, h⟩ := linkPoll_polled mask cap ⟨hb, hn, ht⟩
  exact ⟨t, vs, hpoll, h.trace, h.returned, h.withinCap, h.reads, h.earlierClear, h.stopped, h.lastRead, h.between.idle,
    h.between.ncsHigh, h.between.txnNotDone, h.viol⟩

/-! The start-up sequence (R188): the bus reset and the wake write end between transactions, and all that follows leads
there again. -/

theorem endsBetweenTransactions_waitUs (n : Nat) : EndsBetweenTransactions [.waitUs n] :=
  fun s hs => ⟨s, rfl, hs, rfl⟩

theorem betweenTransactions_csRelease (s : State) : BetweenTransactions (completed .csRelease s) :=
  ⟨completed_busy _ _, completed_ncs _ _, completed_txnDone _ _⟩

theorem endsBetweenTransactions_csRelease : EndsBetweenTransactions [.call .csRelease] := fun s hs =>
  ⟨completed .csRelease s, presentAll_call hs.idle rfl [], betweenTransactions_csRelease s, completed_viol _ _⟩

theorem endsBetweenTransactions_flatMap_guarded {α : Type} {f : α → Instr} {xs : List α}
    (h : ∀ x ∈ xs, (f x).wellFormed = true) : EndsBetweenTransactions (xs.flatMap fun x => guarded (f x)) := by
  induction xs with
  | nil => exact .nil
  | cons x xs ih =>
    obtain ⟨hx, hxs⟩ := List.forall_mem_cons.mp h
    exact (endsBetweenTransactions_guarded hx).append (ih hxs)

theorem presentAll_append_of_next {xs : List HostAction} {s t : State} (h : presentAll xs s = .next t)
    (ys : List HostAction) : presentAll (xs ++ ys) s = presentAll ys t := by
  rw [presentAll_append, h]

/-- From any idle block the host actions `xs` complete, end between transactions and record nothing. -/
def ReachesBetweenTransactions (xs : List HostAction) : Prop :=
  ∀ s : State, s.busy = false → ∃ t, presentAll xs s = .next t ∧ BetweenTransactions t ∧ t.viol = s.viol

theorem ReachesBetweenTransactions.append {xs ys : List HostAction} (hxs : ReachesBetweenTransactions xs)
    (hys : EndsBetweenTransactions ys) : ReachesBetweenTransactions (xs ++ ys) := by
  intro s hs
  obtain ⟨t, hst, ht, htviol⟩ := hxs s hs
  obtain ⟨u, htu, hu, huviol⟩ := hys t ht
  exact ⟨u, (presentAll_append_of_next hst ys).trans htu, hu, huviol.trans htviol⟩

theorem pulsed_busy (s : State) : (pulsed s).busy = false := completed_busy _ _

theorem pulsed_ncs (s : State) : (pulsed s).ncs = false := completed_ncs _ _

/-- The wake write runs under the last low level of the bus reset, where the entry check finds nothing (C10, R166). -/
theorem reachesBetweenTransactions_wake {addr : Byte} (v : Byte) (n : Nat) (ha : addrInRange addr = true) :
    ReachesBetweenTransactions
      (busReset ++ [HostAction.call (.writeReg addr v), HostAction.call .csRelease, HostAction.waitMs n]) := by
  intro s hb
  refine ⟨completed .csRelease (completed (.writeReg addr v) (pulsed (pulsed s))), ?_,
    betweenTransactions_csRelease _, ?_⟩
  · rw [presentAll_append_of_next (presentAll_busReset hb), presentAll_call (pulsed_busy _) (i := .writeReg addr v) ha,
      presentAll_call (completed_busy _ _) rfl]
    rfl
  · calc (completed .csRelease (completed (.writeReg addr v) (pulsed (pulsed s)))).viol
        = (completed (.writeReg addr v) (pulsed (pulsed s))).viol := completed_viol ..
      _ = (pulsed (pulsed s)).viol := completed_viol_of_open _ (pulsed_ncs _) (pulsed_txnDone _)
      _ = s.viol := (pulsed_viol _).trans (pulsed_viol s)

theorem startupConfigure_reaches {p : StartupParams} (hp : p.wellFormed = true) :
    ReachesBetweenTransactions (startupConfigure p) := by
  simp only [StartupParams.wellFormed, Bool.and_eq_true, List.all_eq_true] at hp
  obtain ⟨⟨⟨⟨⟨⟨⟨⟨hwake, hobs⟩, hconfig⟩, hprobe⟩, hctl⟩, hctlShadow⟩, hpwr⟩, hpwrShadow⟩, hmain⟩ := hp
  have hctls := Bool.and_eq_true_iff.mpr ⟨hctl, hctlShadow⟩
  have hpwrs := Bool.and_eq_true_iff.mpr ⟨hpwr, hpwrShadow⟩
  unfold startupConfigure
  refine .append (.append (.append (.append (.append (.append (.append (.append ?_ ?_) ?_) ?_) ?_) ?_) ?_) ?_) ?_
  · exact reachesBetweenTransactions_wake p.wakeValue Config.tPowerUpMs hwake
  · exact endsBetweenTransactions_guarded (i := .writeReg p.obsReg p.clearValue) hobs
  · exact endsBetweenTransactions_waitUs Config.tFrameUs
  · exact endsBetweenTransactions_guarded (i := .readReg p.obsReg) hobs
  · exact endsBetweenTransactions_flatMap_guarded (f := fun c : Byte × Byte => .writeReg c.1 c.2) hconfig
  · exact endsBetweenTransactions_flatMap_guarded (f := .readReg) hprobe
  · exact endsBetweenTransactions_expand (p := .xshadow p.laserCtl p.laserCtlShadow p.laserCtlValue) rfl hctls
  · exact endsBetweenTransactions_expand (p := .xshadow p.laserPwr p.laserPwrShadow p.laserPwrValue) rfl hpwrs
  · exact endsBetweenTransactions_guarded (i := .writeReg p.mainConfig p.mainConfigValue) hmain

theorem identityRegs_inRange : ∀ r ∈ Config.identityRegs, addrInRange r = true := List.all_eq_true.mp rfl

theorem endsBetweenTransactions_startupFinish : EndsBetweenTransactions startupFinish :=
  (endsBetweenTransactions_flatMap_guarded (f := .readReg) identityRegs_inRange).append
    endsBetweenTransactions_csRelease

/-- Settles O50: the configuration reaches a state between transactions, and the poll and the identity reads keep to
such states. -/
theorem startupReachesReady : Obligations.StartupReachesReady := by
  unfold Obligations.StartupReachesReady
  intro p s hp hb
  obtain ⟨t, hconfigure, ht, htviol⟩ := startupConfigure_reaches hp s hb
  obtain ⟨u, vs, hpoll, hu⟩ := linkPoll_polled p.linkMask Config.linkRetryCap ht
  obtain ⟨w, hfinish, ⟨hidle, hhigh, hclear⟩, hwviol⟩ := endsBetweenTransactions_startupFinish u hu.between
  exact ⟨w, by simp only [startup, hconfigure, hpoll, hfinish], hidle, hhigh, hclear,
    (hwviol.trans hu.viol).trans htviol⟩

end Sys2Proof.Machine
